-- ==== Sys2Proof/Word.lean ====
section
/-! DEFINITION. The words of the machine: a byte (every register, cell, opcode and operand, R9), the 9-bit program counter (R25)
and the name of a general register (R20). -/

namespace Sys2Proof

/-- A register value, memory cell, opcode or operand: an unsigned integer 0 to 255 (R9). -/
abbrev Byte := BitVec 8

/-- The program counter: 9 bits, so that 256, one past the last address, can be held (R25). -/
abbrev PcWord := BitVec 9

/-- A general register R0 to R7 by its index (R20). -/
abbrev Reg := Fin 8

/-- The operand byte that names a register: its index (R21, R82). -/
def regByte (r : Reg) : Byte := BitVec.ofNat 8 r.val

end Sys2Proof
end

