-- ==== Sys2Proof/Config.lean ====
section
/-! DEFINITION. The parameters of the machine (R5), and the two values the spec leaves open, as constants without a body. -/

namespace Sys2Proof.Config

/-- MEM_SIZE: the number of memory cells, addresses 0 to 255 (R5, R36, D25). -/
abbrev memSize : Nat := 256

/-- PC_MAX: the largest value pc holds, one past the last address (R5, R25, D1). -/
abbrev pcMax : Nat := 256

/-- NREG: the number of general registers (R5, R20, D25). -/
abbrev regCount : Nat := 8

/-- SP_RESET (R5, R32, D2; log 3). -/
def spReset : Byte := 0xF4#8

/-- GPR_RESET, FL_RESET, IM_RESET, IS_RESET and IR_RESET, all zero (R5, R41, D3; log 3). -/
def registerReset : Byte := 0x00#8

/-- What a cell holds after reset until something writes it: "zero-initialized" (R36). -/
def memoryReset : Byte := 0x00#8

/-- INT_VECTOR: the address INT jumps to, an address 0 to 255, the same for every INT of a run. The spec leaves its value OPEN
(R191, D9), so nothing can evaluate it: what is proved of INT holds for every vector (log 5). -/
opaque intVector : Byte

/-- What a console shows for Chr(v) when v is no printable ASCII code: the spec leaves it to the console (R152, U7; log 12). -/
opaque consoleGlyph : Byte → List Char

end Sys2Proof.Config
end

