-- ==== Sys2Proof/Machine/State.lean ====
section
/-! DEFINITION. The whole state of the machine (10_state.md), why a step can stop, and the state after reset (R41). -/

namespace Sys2Proof.Machine

/-- The engine's two states (R37, R90). -/
inductive RunState where
  | running
  | halted
deriving DecidableEq, Repr

/-- One output event: Num(v) of PRN, Chr(v) of PRA (R150). -/
inductive OutEvent where
  | num (v : Byte)
  | chr (v : Byte)
deriving DecidableEq, Repr

/-- The five faults of the machine with the datum each records (R200 to R205), in the order R206 numbers them. Each is raised
by the instructions its constructor names. The spec describes what a fault does whole (R208: the record is written, the machine
halts, all else keeps its value), so a tick that raises one answers the NEXT state of that entry, with the fault in err; no step
answers Outcome.fault (log 1). That is safe: the halted state is the machine's own, and nothing runs after it. -/
inductive Fault where
  /-- A read or write outside 0 to 255: opcode fetch, operand fetch, the return address of CALL and INT, a loader write (R201). Safe. -/
  | addressOutOfRange (addr : Nat)
  /-- A register operand 8 to 255, in every instruction that has one (R202). Safe. -/
  | invalidRegister (index : Byte)
  /-- The fetched opcode has no handler; raised by decode (R203). Safe. -/
  | unknownOpcode (byte : Byte)
  /-- DIV or MOD with a zero divisor register (R204). Safe. -/
  | divisionByZero
  /-- PUSH, POP, CALL, RET, INT or IRET would move SP outside 0 to 255 (R205). Safe. -/
  | stackFault
deriving DecidableEq, Repr

/-- The fault report (kind, info, pc): the fault with its datum, and pc when it was raised (R38). -/
structure FaultRecord where
  cause : Fault
  pc : PcWord
deriving DecidableEq, Repr

/-- Why the model gives an instruction no meaning. -/
inductive Refusal where
  /-- An arm of exec without a meaning. No arm is: every instruction of the table has one. Safe. -/
  | notModelled (mnemonic : String)
deriving DecidableEq, Repr

/-- The memory as a list of (address, byte) pairs; its one canonical form is Memory.wf (Machine/Ops.lean) and an unlisted address
reads as Config.memoryReset (R36). -/
abbrev Memory := List Host.Cell

/-- Everything the spec gives the machine: (x[0..7], pc, ir, fl, sp, im, is, mem, run, err, out), and nothing else is state
(10_state.md, R40). -/
structure State where
  /-- The general registers R0 to R7 (R20). -/
  x : Vector Byte 8
  /-- The program counter (R24, R25). -/
  pc : PcWord
  /-- The instruction register: the opcode byte fetched last (R28). -/
  ir : Byte
  /-- The flags register, layout 00000LGE (R29). -/
  fl : Byte
  /-- The stack pointer, a register of its own (R32). -/
  sp : Byte
  /-- The interrupt mask, inert (R33). -/
  im : Byte
  /-- The interrupt status, inert (R33). -/
  is : Byte
  /-- The 256 memory cells (R36). -/
  mem : Memory
  /-- RUNNING or HALTED (R37). -/
  run : RunState
  /-- The fault report, none until a fault (R38). -/
  err : Option FaultRecord
  /-- The events printed so far, oldest first (R39). -/
  out : List OutEvent
deriving DecidableEq, Repr

/-- The machine right after reset, before the loader's writes (R41, R230; log 3 for the values the source does not fix). -/
def State.reset : State where
  x := Vector.replicate 8 Config.registerReset
  pc := 0#9
  ir := Config.registerReset
  fl := Config.registerReset
  sp := Config.spReset
  im := Config.registerReset
  is := Config.registerReset
  mem := []
  run := .running
  err := none
  out := []

end Sys2Proof.Machine
end

