-- ==== Sys2Proof/Machine/Ops.lean ====
section
/-! DEFINITION. The named operations over registers and memory, fault entry, the stack primitives, the output primitive, the
sequential advance and the jump, and the entry to and return from the software interrupt (00_scope.md section 5).

An instruction's rule is written in Except Fault: each line either goes on or raises a fault. attempt gives the result its meaning:
a raised fault drops whatever the rule had done and enters the fault from the state the rule began in, so no fault has a partial
effect (R208). -/

namespace Sys2Proof.Machine

/-! ## Memory as data -/

/-- The byte an address holds; an unlisted address holds the reset value (R36). -/
def Memory.read : Memory → Nat → Byte
  | [], _ => Config.memoryReset
  | (k, v) :: m, a => if k = a then v else Memory.read m a

/-- Puts a cell into its place in a list that rises by address. -/
def Memory.insert (a : Nat) (v : Byte) : Memory → Memory
  | [] => [(a, v)]
  | (k, w) :: m => if a < k then (a, v) :: (k, w) :: m else (k, w) :: Memory.insert a v m

/-- A list without any entry for an address. -/
def Memory.erase (m : Memory) (a : Nat) : Memory := m.filter (fun c => c.1 != a)

/-- The memory with one byte replaced: only the addressed cell changes (R57). Writing the reset value removes the entry. -/
def Memory.write (m : Memory) (a : Nat) (v : Byte) : Memory :=
  if v = Config.memoryReset then m.erase a else (m.erase a).insert a v

/-- The canonical form: addresses strictly rising, each inside the address space, no entry equal to what an unlisted address
reads as. -/
abbrev Memory.wf (m : Memory) : Prop :=
  m.Pairwise (fun c d => c.1 < d.1) ∧ ∀ c ∈ m, c.1 < Config.memSize ∧ c.2 ≠ Config.memoryReset

/-! ## Reading and writing registers and memory -/

/-- x[r] (R10). -/
def State.reg (s : State) (r : Reg) : Byte := s.x[r.val]

/-- x[r] <- v (R10). No register is hard-wired (R20). -/
def State.setReg (s : State) (r : Reg) (v : Byte) : State := { s with x := s.x.set r v }

/-- The byte in memory cell a, for stating what memory holds. -/
def State.byteAt (s : State) (a : Nat) : Byte := s.mem.read a

/-- MemRead(addr, 1) (R11). -/
def memRead (addr : Nat) (s : State) : Except Fault Byte :=
  if addr < Config.memSize then .ok (s.mem.read addr) else .error (.addressOutOfRange addr)

/-- MemWrite(addr, 1, v) (R11). -/
def memWrite (addr : Nat) (v : Byte) (s : State) : Except Fault State :=
  if addr < Config.memSize then .ok { s with mem := s.mem.write addr v } else .error (.addressOutOfRange addr)

/-! ## Faults -/

/-- The number R206 gives a fault's kind. -/
def Fault.code : Fault → Nat
  | .addressOutOfRange _ => 0
  | .invalidRegister _ => 1
  | .unknownOpcode _ => 2
  | .divisionByZero => 3
  | .stackFault => 4

/-- The datum a fault records beside the PC: the address, the register index, the opcode byte, or nothing (R201 to R205). -/
def Fault.info : Fault → Option Nat
  | .addressOutOfRange addr => some addr
  | .invalidRegister index => some index.toNat
  | .unknownOpcode byte => some byte.toNat
  | .divisionByZero => none
  | .stackFault => none

/-- Fault entry: err <- (K, info, pc), run <- HALTED, everything else kept (R208, R13). -/
def takeFault (f : Fault) (s : State) : State := { s with err := some ⟨f, s.pc⟩, run := .halted }

/-- The outcome of an instruction that began in s: the state its rule reached, or the fault it raised entered from s (R208). -/
def attempt (s : State) (r : Except Fault State) : Host.Outcome State Fault Refusal :=
  match r with
  | .ok t => .next t
  | .error f => .next (takeFault f s)

/-- What a tick asked for in HALTED does: nothing (R91). -/
def idle (s : State) : Host.Outcome State Fault Refusal := .next s

/-! ## Program counter and output -/

/-- Fallthrough(n): pc <- pc + n + 1, n the operand count (R14, R96). -/
def fallthrough (n : Nat) (s : State) : State := { s with pc := s.pc + BitVec.ofNat 9 (n + 1) }

/-- pc <- zext_9(target): an absolute byte address (R25, R180). -/
def jumpTo (target : Byte) (s : State) : State := { s with pc := target.setWidth 9 }

/-- run <- HALTED (R100). -/
def halt (s : State) : State := { s with run := .halted }

/-- Emit(e): appends one event to the output (R150). -/
def emit (e : OutEvent) (s : State) : State := { s with out := s.out ++ [e] }

/-- pc + 2, the address after a CALL or INT and its operand, if it is an address (R164, R190, D20). -/
def returnAddress (s : State) : Except Fault Byte :=
  let ret := s.pc.toNat + 2
  if ret > 255 then .error (.addressOutOfRange ret) else .ok (BitVec.ofNat 8 ret)

/-! ## The stack -/

/-- Push(v): StackFault at sp = 0; else sp <- sp - 1 and v is written at the new sp (R160). -/
def push (v : Byte) (s : State) : Except Fault State :=
  if s.sp = 0#8 then .error .stackFault else
    let s := { s with sp := s.sp - 1#8 }
    memWrite s.sp.toNat v s

/-- Pop(): StackFault at sp = 255; else the byte at sp, and sp <- sp + 1 (R161). The popped cell is not cleared. -/
def pop (s : State) : Except Fault (Byte × State) :=
  if s.sp = 255#8 then .error .stackFault else do
    let v ← memRead s.sp.toNat s
    .ok (v, { s with sp := s.sp + 1#8 })

/-! ## The software interrupt -/

/-- Entry to the software interrupt: the return address is pushed, then the flags, and pc goes to INT_VECTOR (R190, R214). No
other register changes; both pushes must fit before the first is made. -/
def enterInterrupt (s : State) : Except Fault State := do
  let ret ← returnAddress s
  if s.sp.toNat < 2 then .error .stackFault else
    let s1 ← push ret s
    let s2 ← push s.fl s1
    .ok (jumpTo Config.intVector s2)

/-- Return from the software interrupt: the flags are popped, bits 2:0 kept, then the return address (R192). Both pops must fit
before the first is made. -/
def returnFromInterrupt (s : State) : Except Fault State :=
  if s.sp.toNat > 253 then .error .stackFault else do
    let (f, s1) ← pop s
    let (r, s2) ← pop s1
    .ok (jumpTo r { s2 with fl := f &&& 0x07#8 })

end Sys2Proof.Machine
end

