-- ==== Sys2Proof/Machine/Flags.lean ====
section
/-! DEFINITION. The flags register: layout 00000LGE (R29), setFlag and the comparison (R30, R125). -/

namespace Sys2Proof.Machine

/-- The mask of EQUAL: bit 0 (R29, D4). -/
def flagE : Byte := 0x01#8

/-- The mask of GREATER: bit 1 (R29, D4). -/
def flagG : Byte := 0x02#8

/-- The mask of LESS: bit 2 (R29, D4). -/
def flagL : Byte := 0x04#8

/-- setFlag(flag, bool): "sets or clears exactly one bit of Flags, leaving the other two untouched" (R30). -/
def setFlag (mask : Byte) (b : Bool) (fl : Byte) : Byte := if b then fl ||| mask else fl &&& ~~~mask

/-- fl.E (R10). -/
def State.flE (s : State) : Bool := s.fl.getLsbD 0

/-- fl.G (R10). -/
def State.flG (s : State) : Bool := s.fl.getLsbD 1

/-- fl.L (R10). -/
def State.flL (s : State) : Bool := s.fl.getLsbD 2

/-- The flags after comparing p with q as the integers 0 to 255 (R125, D5): three setFlag calls, each with its own truth value. -/
def compareFlags (p q fl : Byte) : Byte :=
  setFlag flagL (decide (p.toNat < q.toNat))
    (setFlag flagG (decide (p.toNat > q.toNat))
      (setFlag flagE (decide (p.toNat = q.toNat)) fl))

end Sys2Proof.Machine
end

