-- ==== Sys2Proof/Syntax.lean ====
section
/-! DEFINITION. The 30 instructions of the opcode map (R78), one constructor a row, in the order of spec/opcode_table.json.
An operand is the operand BYTE: a byte 8 to 255 in a register's place is an instruction that decodes and, when it executes,
raises InvalidRegister (R75), so the byte is kept whole (log 8). -/

namespace Sys2Proof

/-- An instruction of the LS-8 core with its operand bytes: a is the byte at pc+1, b or i the byte at pc+2 (R70, R77). -/
inductive Instr where
  | nop
  | hlt
  | inc (a : Byte)
  | dec (a : Byte)
  | add (a b : Byte)
  | sub (a b : Byte)
  | mul (a b : Byte)
  | div (a b : Byte)
  | mod (a b : Byte)
  | or (a b : Byte)
  | xor (a b : Byte)
  | and (a b : Byte)
  | not (a : Byte)
  | cmp (a b : Byte)
  | ldi (a i : Byte)
  | ld (a b : Byte)
  | st (a b : Byte)
  | prn (a : Byte)
  | pra (a : Byte)
  | pop (a : Byte)
  | push (a : Byte)
  | call (a : Byte)
  | ret
  | jmp (a : Byte)
  | jeq (a : Byte)
  | jne (a : Byte)
  | jlt (a : Byte)
  | jgt (a : Byte)
  | int (a : Byte)
  | iret
deriving DecidableEq, Repr

end Sys2Proof
end

