-- ==== Sys2Proof/WellFormed.lean ====
section
/-! DEFINITION. Which instructions name only registers that exist: every operand byte used as a register index is 0 to 7 (R75).
An ill-formed instruction decodes and, executed, raises InvalidRegister (R202). -/

namespace Sys2Proof

/-- The operand bytes an instruction uses as register indices, in the order they are checked: operand A, then operand B
(R77, R202). LDI's operand B is an immediate and is none of them (R76). -/
def Instr.registerOperands : Instr → List Byte
  | .nop | .hlt | .ret | .iret => []
  | .inc a | .dec a | .not a | .prn a | .pra a | .pop a | .push a | .call a => [a]
  | .jmp a | .jeq a | .jne a | .jlt a | .jgt a | .int a => [a]
  | .ldi a _ => [a]
  | .add a b | .sub a b | .mul a b | .div a b | .mod a b => [a, b]
  | .or a b | .xor a b | .and a b | .cmp a b | .ld a b | .st a b => [a, b]

/-- An operand byte that names a general register: 0 to 7, with no bit ignored (R75). -/
def namesRegister (i : Byte) : Bool := decide (i.toNat < Config.regCount)

/-- Every register operand names a register (R75, R80). -/
def Instr.wf (i : Instr) : Bool := i.registerOperands.all namesRegister

end Sys2Proof
end

