-- ==== Sys2Proof/Machine/Operands.lean ====
section
/-! DEFINITION. The operand forms of R77: register direct, immediate, register indirect. -/

namespace Sys2Proof.Machine

/-- CheckReg(i): the register an operand byte names, or InvalidRegister(i) if i > 7; the index is never masked (R12, R21, R75). -/
def checkReg (i : Byte) : Except Fault Reg :=
  if h : i.toNat < 8 then .ok ⟨i.toNat, h⟩ else .error (.invalidRegister i)

/-- The immediate operand: the byte itself, with no extension, scaling or shifting (R76). -/
def immediate (i : Byte) : Byte := i

/-- The effective address of a register-indirect operand: the register's value, no offset, no scaling (R141, R142). -/
def indirectAddress (r : Reg) (s : State) : Nat := (s.reg r).toNat

end Sys2Proof.Machine
end

