-- ==== Sys2Proof/Machine/Alu.lean ====
section
/-! DEFINITION. The ALU instructions (41_alu.md). compute is "a pure function over register values" (R110): each operation below
computes on bytes, modulo 256 (R111); two shared shapes read the registers, write operand A's register and advance. -/

namespace Sys2Proof.Machine

/-- DIV: the quotient of the unsigned values, rounded down; DivisionByZero if q = 0 (R113, R119). -/
def aluDiv (p q : Byte) : Except Fault Byte :=
  if q = 0#8 then .error .divisionByZero else .ok (BitVec.ofNat 8 (p.toNat / q.toNat))

/-- MOD: the remainder p - q * floor(p / q); DivisionByZero if q = 0 (R113, R120). -/
def aluMod (p q : Byte) : Except Fault Byte :=
  if q = 0#8 then .error .divisionByZero else .ok (BitVec.ofNat 8 (p.toNat - q.toNat * (p.toNat / q.toNat)))

/-- NOT: 255 - v (R124). -/
def aluNot (p : Byte) : Byte := 255#8 - p

/-- The one-register shape: CheckReg(a); x[a] <- f(x[a]); Fallthrough(1) (R114, R115, R124). -/
def aluUnary (f : Byte → Byte) (a : Byte) (s : State) : Except Fault State := do
  let ra ← checkReg a
  .ok (fallthrough 1 (s.setReg ra (f (s.reg ra))))

/-- The two-register shape: CheckReg(a); CheckReg(b); x[a] <- f(x[a], x[b]); Fallthrough(2) (R116 to R123). -/
def aluBinary (f : Byte → Byte → Except Fault Byte) (a b : Byte) (s : State) : Except Fault State := do
  let ra ← checkReg a
  let rb ← checkReg b
  let v ← f (s.reg ra) (s.reg rb)
  .ok (fallthrough 2 (s.setReg ra v))

/-- INC reg (R114). -/
def execInc (a : Byte) (s : State) : Host.Outcome State Fault Refusal :=
  attempt s (aluUnary (fun p => p + 1#8) a s)

/-- DEC reg (R115). -/
def execDec (a : Byte) (s : State) : Host.Outcome State Fault Refusal :=
  attempt s (aluUnary (fun p => p - 1#8) a s)

/-- ADD regA, regB (R116). -/
def execAdd (a b : Byte) (s : State) : Host.Outcome State Fault Refusal :=
  attempt s (aluBinary (fun p q => .ok (p + q)) a b s)

/-- SUB regA, regB (R117). -/
def execSub (a b : Byte) (s : State) : Host.Outcome State Fault Refusal :=
  attempt s (aluBinary (fun p q => .ok (p - q)) a b s)

/-- MUL regA, regB: the low 8 bits of the product (R118). -/
def execMul (a b : Byte) (s : State) : Host.Outcome State Fault Refusal :=
  attempt s (aluBinary (fun p q => .ok (p * q)) a b s)

/-- DIV regA, regB (R119). -/
def execDiv (a b : Byte) (s : State) : Host.Outcome State Fault Refusal :=
  attempt s (aluBinary aluDiv a b s)

/-- MOD regA, regB (R120). -/
def execMod (a b : Byte) (s : State) : Host.Outcome State Fault Refusal :=
  attempt s (aluBinary aluMod a b s)

/-- OR regA, regB (R121). -/
def execOr (a b : Byte) (s : State) : Host.Outcome State Fault Refusal :=
  attempt s (aluBinary (fun p q => .ok (p ||| q)) a b s)

/-- XOR regA, regB (R122). -/
def execXor (a b : Byte) (s : State) : Host.Outcome State Fault Refusal :=
  attempt s (aluBinary (fun p q => .ok (p ^^^ q)) a b s)

/-- AND regA, regB (R123). -/
def execAnd (a b : Byte) (s : State) : Host.Outcome State Fault Refusal :=
  attempt s (aluBinary (fun p q => .ok (p &&& q)) a b s)

/-- NOT reg (R124). -/
def execNot (a : Byte) (s : State) : Host.Outcome State Fault Refusal :=
  attempt s (aluUnary aluNot a s)

/-- CMP regA, regB: writes the three flags and no register (R125). -/
def execCmp (a b : Byte) (s : State) : Host.Outcome State Fault Refusal :=
  attempt s do
    let ra ← checkReg a
    let rb ← checkReg b
    .ok (fallthrough 2 { s with fl := compareFlags (s.reg ra) (s.reg rb) s.fl })

end Sys2Proof.Machine
end

