-- ==== Sys2Proof/Machine/Branch.lean ====
section
/-! DEFINITION. JMP, JEQ, JNE, JLT and JGT (45_branch.md). -/

namespace Sys2Proof.Machine

/-- The common behaviour of the five: the register is validated whether or not the jump is taken; taken, pc <- zext_9(x[a]); not
taken, Fallthrough(1) (R180). -/
def branch (taken : Bool) (a : Byte) (s : State) : Except Fault State := do
  let ra ← checkReg a
  .ok (if taken then jumpTo (s.reg ra) s else fallthrough 1 s)

/-- JMP reg (R181). -/
def execJmp (a : Byte) (s : State) : Host.Outcome State Fault Refusal := attempt s (branch true a s)

/-- JEQ reg: taken if E is 1 (R182). -/
def execJeq (a : Byte) (s : State) : Host.Outcome State Fault Refusal := attempt s (branch s.flE a s)

/-- JNE reg: taken if E is 0 (R183). -/
def execJne (a : Byte) (s : State) : Host.Outcome State Fault Refusal := attempt s (branch (!s.flE) a s)

/-- JLT reg: taken if L is 1 (R184). -/
def execJlt (a : Byte) (s : State) : Host.Outcome State Fault Refusal := attempt s (branch s.flL a s)

/-- JGT reg: taken if G is 1 (R185). -/
def execJgt (a : Byte) (s : State) : Host.Outcome State Fault Refusal := attempt s (branch s.flG a s)

end Sys2Proof.Machine
end

