-- ==== Sys2Proof/Machine/Engine.lean ====
section
/-! DEFINITION. The two instructions of the engine itself: NOP and HLT (40_engine_nop_hlt.md). -/

namespace Sys2Proof.Machine

/-- NOP (R99). -/
def execNop (s : State) : Host.Outcome State Fault Refusal :=
  attempt s (.ok (fallthrough 0 s))

/-- HLT: run <- HALTED, and pc moves past the HLT byte (R100, D16). -/
def execHlt (s : State) : Host.Outcome State Fault Refusal :=
  attempt s (.ok (fallthrough 0 (halt s)))

end Sys2Proof.Machine
end

