-- ==== Sys2Proof/Machine/Interrupt.lean ====
section
/-! DEFINITION. INT and IRET over the interrupt entry and return of Machine/Ops.lean (46_interrupt.md). -/

namespace Sys2Proof.Machine

/-- INT reg: the register is checked and read, and its value selects nothing (R190). -/
def execInt (a : Byte) (s : State) : Host.Outcome State Fault Refusal :=
  attempt s do
    let _ ← checkReg a
    enterInterrupt s

/-- IRET (R192). -/
def execIret (s : State) : Host.Outcome State Fault Refusal :=
  attempt s (returnFromInterrupt s)

end Sys2Proof.Machine
end

