-- ==== Sys2Proof/Machine/LoadStore.lean ====
section
/-! DEFINITION. LDI, LD and ST (42_load_store.md). -/

namespace Sys2Proof.Machine

/-- LDI reg, immediate (R140). -/
def execLdi (a i : Byte) (s : State) : Host.Outcome State Fault Refusal :=
  attempt s do
    let ra ← checkReg a
    .ok (fallthrough 2 (s.setReg ra (immediate i)))

/-- LD regA, regB: regA <- mem[regB], the address read before the register is written (R141). -/
def execLd (a b : Byte) (s : State) : Host.Outcome State Fault Refusal :=
  attempt s do
    let ra ← checkReg a
    let rb ← checkReg b
    let v ← memRead (indirectAddress rb s) s
    .ok (fallthrough 2 (s.setReg ra v))

/-- ST regA, regB: mem[regA] <- regB, the address register first (R142). -/
def execSt (a b : Byte) (s : State) : Host.Outcome State Fault Refusal :=
  attempt s do
    let ra ← checkReg a
    let rb ← checkReg b
    let t ← memWrite (indirectAddress ra s) (s.reg rb) s
    .ok (fallthrough 2 t)

end Sys2Proof.Machine
end

