-- ==== Sys2Proof/Machine/Output.lean ====
section
/-! DEFINITION. PRN and PRA, and what the console shows for an event (43_output.md). -/

namespace Sys2Proof.Machine

/-- PRN reg: emits Num(x[a]) (R151). -/
def execPrn (a : Byte) (s : State) : Host.Outcome State Fault Refusal :=
  attempt s do
    let ra ← checkReg a
    .ok (fallthrough 1 (emit (.num (s.reg ra)) s))

/-- PRA reg: emits Chr(x[a]) (R152). -/
def execPra (a : Byte) (s : State) : Host.Outcome State Fault Refusal :=
  attempt s do
    let ra ← checkReg a
    .ok (fallthrough 1 (emit (.chr (s.reg ra)) s))

/-- The text of one event on the console, without any line end: the decimal numeral of v with no sign and no leading zeros
(R151), or the character whose ASCII code is v (R152). What is shown for a v that is no printable ASCII code the spec leaves to
the console (U7; log 12). -/
def OutEvent.consoleText : OutEvent → List Char
  | .num v => Nat.toDigits 10 v.toNat
  | .chr v => if 32 ≤ v.toNat ∧ v.toNat < 127 then [Char.ofNat v.toNat] else Config.consoleGlyph v

end Sys2Proof.Machine
end

