-- ==== Sys2Proof/Machine/Stack.lean ====
section
/-! DEFINITION. PUSH, POP, CALL and RET over the stack primitives of Machine/Ops.lean (44_stack_call.md). -/

namespace Sys2Proof.Machine

/-- PUSH reg (R162). -/
def execPush (a : Byte) (s : State) : Host.Outcome State Fault Refusal :=
  attempt s do
    let ra ← checkReg a
    let t ← push (s.reg ra) s
    .ok (fallthrough 1 t)

/-- POP reg: the register is checked before SP moves (R163). -/
def execPop (a : Byte) (s : State) : Host.Outcome State Fault Refusal :=
  attempt s do
    let ra ← checkReg a
    let (v, t) ← pop s
    .ok (fallthrough 1 (t.setReg ra v))

/-- CALL reg: the target is read, the return address pc + 2 pushed, pc written (R164). -/
def execCall (a : Byte) (s : State) : Host.Outcome State Fault Refusal :=
  attempt s do
    let ra ← checkReg a
    let target := s.reg ra
    let ret ← returnAddress s
    let t ← push ret s
    .ok (jumpTo target t)

/-- RET: pops the return address into pc (R165). -/
def execRet (s : State) : Host.Outcome State Fault Refusal :=
  attempt s do
    let (v, t) ← pop s
    .ok (jumpTo v t)

end Sys2Proof.Machine
end

