-- ==== Sys2Proof/Decode.lean ====
section
/-! DEFINITION. The opcode map (R78), the decoder, total on any bytes and rejecting by name, then the encoder and the sets-PC
attribute (R73), each written from the table of 30_encoding.md. -/

namespace Sys2Proof

/-- What the dispatch table holds for an opcode: how many operand bytes follow it (formats F0, F1 and F2 of R70) and the
instruction they make. -/
inductive Handler where
  | f0 (i : Instr)
  | f1 (mk : Byte → Instr)
  | f2 (mk : Byte → Byte → Instr)

/-- The operand count of a handler (R70). -/
def Handler.operandCount : Handler → Nat
  | .f0 _ => 0
  | .f1 _ => 1
  | .f2 _ => 2

/-- The opcode map: exact match of all eight bits against the 30 rows of R78; any other byte has no handler (R79). -/
def handler (op : Byte) : Option Handler :=
  match op.toNat with
  | 0x00 => some (.f0 .nop)
  | 0x01 => some (.f0 .hlt)
  | 0x78 => some (.f1 .inc)
  | 0x79 => some (.f1 .dec)
  | 0xA8 => some (.f2 .add)
  | 0xA9 => some (.f2 .sub)
  | 0xAA => some (.f2 .mul)
  | 0xAB => some (.f2 .div)
  | 0xAC => some (.f2 .mod)
  | 0xB1 => some (.f2 .or)
  | 0xB2 => some (.f2 .xor)
  | 0xB3 => some (.f2 .and)
  | 0x70 => some (.f1 .not)
  | 0xA0 => some (.f2 .cmp)
  | 0x99 => some (.f2 .ldi)
  | 0x98 => some (.f2 .ld)
  | 0x9A => some (.f2 .st)
  | 0x43 => some (.f1 .prn)
  | 0x42 => some (.f1 .pra)
  | 0x4C => some (.f1 .pop)
  | 0x4D => some (.f1 .push)
  | 0x48 => some (.f1 .call)
  | 0x09 => some (.f0 .ret)
  | 0x50 => some (.f1 .jmp)
  | 0x51 => some (.f1 .jeq)
  | 0x52 => some (.f1 .jne)
  | 0x53 => some (.f1 .jlt)
  | 0x54 => some (.f1 .jgt)
  | 0x4A => some (.f1 .int)
  | 0x0B => some (.f0 .iret)
  | _ => none

/-- The operand count as the opcode's own top two bits give it: opcode[7:6] (R71). -/
def topTwoBits (op : Byte) : Nat := (op >>> 6).toNat

/-- Why bytes are no instruction: the opcode has no handler (R79), or the byte at this offset from the opcode is not there. -/
inductive DecodeError where
  | unknownOpcode (op : Byte)
  | missingByte (offset : Nat)
deriving DecidableEq, Repr

/-- Reads one instruction from the front of the bytes and gives back the rest. The opcode is looked up before any operand byte
is asked for, and operand A is asked for before operand B (R92, R94). -/
def decode : List Byte → Except DecodeError (Instr × List Byte)
  | [] => .error (.missingByte 0)
  | op :: rest =>
    match handler op with
    | none => .error (.unknownOpcode op)
    | some (.f0 i) => .ok (i, rest)
    | some (.f1 mk) =>
      match rest with
      | a :: rest => .ok (mk a, rest)
      | [] => .error (.missingByte 1)
    | some (.f2 mk) =>
      match rest with
      | a :: b :: rest => .ok (mk a b, rest)
      | [_] => .error (.missingByte 2)
      | [] => .error (.missingByte 1)

/-- The opcode byte of an instruction (R78, column "byte"). -/
def Instr.opcode : Instr → Byte
  | .nop => 0b00000000#8
  | .hlt => 0b00000001#8
  | .inc _ => 0b01111000#8
  | .dec _ => 0b01111001#8
  | .add _ _ => 0b10101000#8
  | .sub _ _ => 0b10101001#8
  | .mul _ _ => 0b10101010#8
  | .div _ _ => 0b10101011#8
  | .mod _ _ => 0b10101100#8
  | .or _ _ => 0b10110001#8
  | .xor _ _ => 0b10110010#8
  | .and _ _ => 0b10110011#8
  | .not _ => 0b01110000#8
  | .cmp _ _ => 0b10100000#8
  | .ldi _ _ => 0b10011001#8
  | .ld _ _ => 0b10011000#8
  | .st _ _ => 0b10011010#8
  | .prn _ => 0b01000011#8
  | .pra _ => 0b01000010#8
  | .pop _ => 0b01001100#8
  | .push _ => 0b01001101#8
  | .call _ => 0b01001000#8
  | .ret => 0b00001001#8
  | .jmp _ => 0b01010000#8
  | .jeq _ => 0b01010001#8
  | .jne _ => 0b01010010#8
  | .jlt _ => 0b01010011#8
  | .jgt _ => 0b01010100#8
  | .int _ => 0b01001010#8
  | .iret => 0b00001011#8

/-- The operand bytes that follow the opcode, A before B (R54, R70). -/
def Instr.operandBytes : Instr → List Byte
  | .nop | .hlt | .ret | .iret => []
  | .inc a | .dec a | .not a | .prn a | .pra a | .pop a | .push a | .call a => [a]
  | .jmp a | .jeq a | .jne a | .jlt a | .jgt a | .int a => [a]
  | .ldi a i => [a, i]
  | .add a b | .sub a b | .mul a b | .div a b | .mod a b => [a, b]
  | .or a b | .xor a b | .and a b | .cmp a b | .ld a b | .st a b => [a, b]

/-- The bytes of an instruction in ascending address order (R54). -/
def encode (i : Instr) : List Byte := i.opcode :: i.operandBytes

/-- The length of an instruction in bytes, 1, 2 or 3 (R70, R71). -/
def Instr.length (i : Instr) : Nat := (encode i).length

/-- The sets-PC attribute: a column of the table and no bit of the opcode (R72, R73, D23). For JEQ, JNE, JLT and JGT it says that
the handler may write PC. -/
def Instr.setsPc : Instr → Bool
  | .call _ | .ret | .jmp _ | .jeq _ | .jne _ | .jlt _ | .jgt _ | .int _ | .iret => true
  | .nop | .hlt | .inc _ | .dec _ | .add _ _ | .sub _ _ | .mul _ _ | .div _ _ | .mod _ _ => false
  | .or _ _ | .xor _ _ | .and _ _ | .not _ | .cmp _ _ | .ldi _ _ | .ld _ _ | .st _ _ => false
  | .prn _ | .pra _ | .pop _ | .push _ => false

/-- Byte k of a word numbered as spec/opcode_table.json numbers bits: byte 0 is the opcode, byte 1 operand A. -/
def wordByte (w k : Nat) : Byte := BitVec.ofNat 8 (w / 2 ^ (8 * k))

/-- The three bytes, as many as the longest instruction has, of a word of nbits bits, every bit above nbits zero. -/
def wordBytes (nbits w : Nat) : List Byte :=
  let v := w % 2 ^ nbits
  [wordByte v 0, wordByte v 1, wordByte v 2]

/-- The instruction the decoder reads from the bits of an opcode-table row, or none where it refuses. -/
def decodeTableWord (nbits w : Nat) : Option Instr :=
  match decode (wordBytes nbits w) with
  | .ok (i, _) => some i
  | .error _ => none

end Sys2Proof
end

