-- ==== Sys2Proof/Machine/Fetch.lean ====
section
/-! DEFINITION. The fetch of a tick: opcode, decode, operands (R92 to R95), and placing an instruction's bytes in memory. -/

namespace Sys2Proof.Machine

/-- Reads exactly the operand bytes the handler has, operand A from pc+1, then operand B from pc+2, the addresses computed
without wrap (R94). -/
def fetchOperands (h : Handler) (s : State) : Except Fault Instr :=
  match h with
  | .f0 i => .ok i
  | .f1 mk => do
    let a ← memRead (s.pc.toNat + 1) s
    .ok (mk a)
  | .f2 mk => do
    let a ← memRead (s.pc.toNat + 1) s
    let b ← memRead (s.pc.toNat + 2) s
    .ok (mk a b)

/-- Decode, then operand fetch: an opcode without a handler raises UnknownOpcode and fetches no operands (R94, R95). -/
def decodeAndFetchOperands (op : Byte) (s : State) : Except Fault Instr :=
  match handler op with
  | none => .error (.unknownOpcode op)
  | some h => fetchOperands h s

/-- The fetch of one tick: the state with ir written, if the opcode fetch succeeded (R93), and the instruction or the fault. -/
def fetch (s : State) : State × Except Fault Instr :=
  match memRead s.pc.toNat s with
  | .error f => (s, .error f)
  | .ok op =>
    let t := { s with ir := op }
    (t, decodeAndFetchOperands op t)

/-- Memory with bytes written at ascending addresses, those past the last address left out. -/
def Memory.place (m : Memory) (a : Nat) : List Byte → Memory
  | [] => m
  | v :: vs => Memory.place (if a < Config.memSize then m.write a v else m) (a + 1) vs

end Sys2Proof.Machine
end

