-- ==== Sys2Proof/Machine/Step.lean ====
section
/-! DEFINITION. The tick (R92), and placing an instruction where the next tick fetches. -/

namespace Sys2Proof.Machine

/-- A tick asked for by the host: in RUNNING, fetch and then execute, a fault of the fetch entered like any other (R92); in
HALTED, nothing (R91). -/
def step (s : State) : Host.Outcome State Fault Refusal :=
  match s.run with
  | .halted => idle s
  | .running =>
    match fetch s with
    | (t, .error f) => attempt t (.error f)
    | (t, .ok i) => exec i t

/-- The state with the three bytes of a table word stored at pc, pc+1 and pc+2, where the next tick fetches; bytes past the last
address are left out, and nothing else changes (log 13). -/
def State.withFetchWord (s : State) (nbits w : Nat) : State :=
  { s with mem := s.mem.place s.pc.toNat (wordBytes nbits w) }

end Sys2Proof.Machine
end

