-- ==== Sys2Proof/Machine/Loader.lean ====
section
/-! DEFINITION. The loader port: the writes to memory between reset and the first tick (R64, R233). It is how a program comes to
run (log 13); no step takes a loader write. -/

namespace Sys2Proof.Machine

/-- Applies the loader's writes in order. An address outside 0 to 255 halts the machine with err = (AddressOutOfRange, address,
pc); the earlier writes stay and the later ones are not applied (R64, D19). -/
def load : List (Nat × Byte) → State → State
  | [], s => s
  | (addr, v) :: image, s =>
    match memWrite addr v s with
    | .ok t => load image t
    | .error f => takeFault f s

/-- The launch state of a run: the reset state with memory replaced by the loaded image (R233). -/
def launch (image : List (Nat × Byte)) : State := load image State.reset

end Sys2Proof.Machine
end

