-- ==== Sys2Proof/Safety.lean ====
section
/-! DEFINITION. The terms claims are stated in: a legal state, the two ends of a run, a fault entered by an instruction, and what is
kept from one state to the next. -/

namespace Sys2Proof.Machine

/-- A legal state, what every state of a run is: pc is 0 to 256 (R25), fl[7:3] are zero (R29), memory has its canonical form, IM
and IS are zero (R33), and a fault record stands only in a halted machine and names the pc it stopped at (R38, R208). -/
abbrev State.Inv (s : State) : Prop :=
  s.pc.toNat ≤ Config.pcMax ∧ s.fl &&& 0xF8#8 = 0#8 ∧ s.mem.wf ∧ (s.im = 0#8 ∧ s.is = 0#8) ∧
    ∀ r ∈ s.err, s.run = .halted ∧ r.pc = s.pc

/-- A normal end: halted by HLT, no fault (R242). -/
abbrev State.normalEnd (s : State) : Prop := s.run = .halted ∧ s.err = none

/-- A failed end: halted by a fault, "gone wrong" (R210, R242). -/
abbrev State.failedEnd (s : State) : Prop := s.run = .halted ∧ s.err ≠ none

/-- A safe state: no fault has been raised (R210). -/
abbrev State.safe (s : State) : Prop := s.err = none

/-- The 30 opcode bytes, the column "hex" of R78, in its order. -/
def opcodeBytes : List Byte :=
  [0x00#8, 0x01#8, 0x78#8, 0x79#8, 0xA8#8, 0xA9#8, 0xAA#8, 0xAB#8, 0xAC#8, 0xB1#8, 0xB2#8, 0xB3#8, 0x70#8, 0xA0#8, 0x99#8,
   0x98#8, 0x9A#8, 0x43#8, 0x42#8, 0x4C#8, 0x4D#8, 0x48#8, 0x09#8, 0x50#8, 0x51#8, 0x52#8, 0x53#8, 0x54#8, 0x4A#8, 0x0B#8]

/-- The bytes of memory from pc to the last address: what a fetch at pc can read. -/
def State.bytesFromPc (s : State) : List Byte :=
  (List.range (Config.memSize - s.pc.toNat)).map (fun k => s.byteAt (s.pc.toNat + k))

/-- Executing i in s enters the fault f: the record is written with s's pc, the machine halts, and all else is as it was (R208). -/
def FaultsWith (i : Instr) (f : Fault) (s : State) : Prop :=
  exec i s = .next { s with err := some ⟨f, s.pc⟩, run := .halted }

/-- An instruction whose one register operand is operand A: it raises InvalidRegister for a byte 8 to 255 (R202). -/
def ChecksOperandA (mk : Byte → Instr) : Prop :=
  ∀ (a : Byte) (s : State), 8 ≤ a.toNat → FaultsWith (mk a) (.invalidRegister a) s

/-- An instruction with the register operands A and B: A is checked first, then B (R202, R207). -/
def ChecksOperandsAB (mk : Byte → Byte → Instr) : Prop :=
  (∀ (a b : Byte) (s : State), 8 ≤ a.toNat → FaultsWith (mk a b) (.invalidRegister a) s) ∧
  (∀ (a b : Byte) (s : State), a.toNat < 8 → 8 ≤ b.toNat → FaultsWith (mk a b) (.invalidRegister b) s)

/-- Every general register keeps its value. -/
def RegistersKept (s t : State) : Prop := ∀ r, t.reg r = s.reg r

/-- Every general register but one keeps its value. -/
def RegistersKeptExcept (d : Reg) (s t : State) : Prop := ∀ r, r ≠ d → t.reg r = s.reg r

/-- Every byte of memory reads as before. -/
def MemoryKept (s t : State) : Prop := ∀ a, t.byteAt a = s.byteAt a

/-- Every byte of memory but the one at addr reads as before. -/
def MemoryKeptExcept (addr : Nat) (s t : State) : Prop := ∀ a, a ≠ addr → t.byteAt a = s.byteAt a

/-- IR, IM, IS, the run state and the fault record keep their values. -/
def EngineKept (s t : State) : Prop :=
  t.ir = s.ir ∧ t.im = s.im ∧ t.is = s.is ∧ t.run = s.run ∧ t.err = s.err

/-- The frame of an instruction that writes pc and at most the register d: everything else is unchanged. -/
def RegisterFrame (d : Reg) (s t : State) : Prop :=
  RegistersKeptExcept d s t ∧ MemoryKept s t ∧ t.fl = s.fl ∧ t.sp = s.sp ∧ t.out = s.out ∧ EngineKept s t

end Sys2Proof.Machine
end

