-- ==== Sys2Proof/Certificates/Slice0/Obligations.lean ====
section
/-! DEFINITION. The statements for the provers. A docstring names the rule a statement formalises, or the spec's own decision D<n> it
rests on. -/

open Sys2Proof Sys2Proof.Machine

/-! ## Encoding -/

/-- One word of each family, its bits written out from R78: engine, ALU, load and store, output, stack, branch, interrupt. -/
def Obligations.OneWordOfEachFamilyDecodes : Prop :=
  decode [0b00000001#8] = .ok (.hlt, []) ∧
  decode [0b10101001#8, 0b00000010#8, 0b00000100#8] = .ok (.sub 2#8 4#8, []) ∧
  decode [0b10011001#8, 0b00000111#8, 0b11111111#8] = .ok (.ldi 7#8 255#8, []) ∧
  decode [0b01000011#8, 0b00000001#8] = .ok (.prn 1#8, []) ∧
  decode [0b01001000#8, 0b00000001#8] = .ok (.call 1#8, []) ∧
  decode [0b01010011#8, 0b00000110#8] = .ok (.jlt 6#8, []) ∧
  decode [0b00001011#8] = .ok (.iret, []) ∧
  decode [0b11000000#8] = .error (.unknownOpcode 0xC0#8)

/-- R78: each of the 30 bytes selects its instruction with its operands, whatever the operand bytes and what follows. R79: every other
byte has no handler, 226 of them. R73: exactly nine instructions have sets_pc, seven of them the source's list; that INT and IRET
are the other two is the spec's own decision D23 (log 7). -/
def Obligations.OpcodeMapIsTheThirtyRows : Prop :=
  (∀ (a b : Byte) (rest : List Byte),
    decode (0b00000000#8 :: rest) = .ok (.nop, rest) ∧
    decode (0b00000001#8 :: rest) = .ok (.hlt, rest) ∧
    decode (0b01111000#8 :: a :: rest) = .ok (.inc a, rest) ∧
    decode (0b01111001#8 :: a :: rest) = .ok (.dec a, rest) ∧
    decode (0b10101000#8 :: a :: b :: rest) = .ok (.add a b, rest) ∧
    decode (0b10101001#8 :: a :: b :: rest) = .ok (.sub a b, rest) ∧
    decode (0b10101010#8 :: a :: b :: rest) = .ok (.mul a b, rest) ∧
    decode (0b10101011#8 :: a :: b :: rest) = .ok (.div a b, rest) ∧
    decode (0b10101100#8 :: a :: b :: rest) = .ok (.mod a b, rest) ∧
    decode (0b10110001#8 :: a :: b :: rest) = .ok (.or a b, rest) ∧
    decode (0b10110010#8 :: a :: b :: rest) = .ok (.xor a b, rest) ∧
    decode (0b10110011#8 :: a :: b :: rest) = .ok (.and a b, rest) ∧
    decode (0b01110000#8 :: a :: rest) = .ok (.not a, rest) ∧
    decode (0b10100000#8 :: a :: b :: rest) = .ok (.cmp a b, rest) ∧
    decode (0b10011001#8 :: a :: b :: rest) = .ok (.ldi a b, rest) ∧
    decode (0b10011000#8 :: a :: b :: rest) = .ok (.ld a b, rest) ∧
    decode (0b10011010#8 :: a :: b :: rest) = .ok (.st a b, rest) ∧
    decode (0b01000011#8 :: a :: rest) = .ok (.prn a, rest) ∧
    decode (0b01000010#8 :: a :: rest) = .ok (.pra a, rest) ∧
    decode (0b01001100#8 :: a :: rest) = .ok (.pop a, rest) ∧
    decode (0b01001101#8 :: a :: rest) = .ok (.push a, rest) ∧
    decode (0b01001000#8 :: a :: rest) = .ok (.call a, rest) ∧
    decode (0b00001001#8 :: rest) = .ok (.ret, rest) ∧
    decode (0b01010000#8 :: a :: rest) = .ok (.jmp a, rest) ∧
    decode (0b01010001#8 :: a :: rest) = .ok (.jeq a, rest) ∧
    decode (0b01010010#8 :: a :: rest) = .ok (.jne a, rest) ∧
    decode (0b01010011#8 :: a :: rest) = .ok (.jlt a, rest) ∧
    decode (0b01010100#8 :: a :: rest) = .ok (.jgt a, rest) ∧
    decode (0b01001010#8 :: a :: rest) = .ok (.int a, rest) ∧
    decode (0b00001011#8 :: rest) = .ok (.iret, rest)) ∧
  (∀ i : Instr, i.setsPc = true ↔
    i = .ret ∨ i = .iret ∨ ∃ a, i = .jmp a ∨ i = .jeq a ∨ i = .jne a ∨ i = .jlt a ∨ i = .jgt a ∨ i = .call a ∨ i = .int a) ∧
  (∀ (op : Byte) (rest : List Byte), op ∉ opcodeBytes → decode (op :: rest) = .error (.unknownOpcode op)) ∧
  ((List.range 256).filter (fun n => BitVec.ofNat 8 n ∉ opcodeBytes)).length = 226

/-- R203: in RUNNING, an opcode byte outside the map halts the machine with UnknownOpcode, the byte and its PC, ir holding the byte,
wherever the byte stands (so no operand is fetched); and UnknownOpcode is reported for no other cause. That all else keeps its value
is R208, by the spec's own decision D11 (log 11). -/
def Obligations.UnknownOpcodeHaltsTheMachine : Prop :=
  (∀ s : State, s.run = .running → s.pc.toNat ≤ 255 → s.byteAt s.pc.toNat ∉ opcodeBytes →
    step s = .next { s with
      ir := s.byteAt s.pc.toNat
      err := some ⟨.unknownOpcode (s.byteAt s.pc.toNat), s.pc⟩
      run := .halted }) ∧
  (∀ (s t : State) (b : Byte) (p : PcWord), s.run = .running → s.err = none → step s = .next t →
    t.err = some ⟨.unknownOpcode b, p⟩ → s.pc.toNat ≤ 255 ∧ b = s.byteAt s.pc.toNat ∧ b ∉ opcodeBytes ∧ p = s.pc)

/-- Decoding the bytes of any instruction, with every operand at every byte value, gives it back and leaves what follows. -/
def Obligations.DecodeOfEncodeIsTheInstruction : Prop :=
  ∀ (i : Instr) (rest : List Byte), decode (encode i ++ rest) = .ok (i, rest)

/-- Bytes that decode are exactly the encoding of the instruction they decode to: each word has one meaning. -/
def Obligations.EncodeOfDecodeIsTheBytes : Prop :=
  ∀ (bs rest : List Byte) (i : Instr), decode bs = .ok (i, rest) → bs = encode i ++ rest

/-- R71: the operand count is opcode[7:6], the length one more; the value 3 belongs to the bytes 0xC0 to 0xFF, which have no handler. -/
def Obligations.TopTwoBitsGiveTheLength : Prop :=
  (∀ (op : Byte) (h : Handler), handler op = some h → h.operandCount = op.toNat / 64) ∧
  (∀ i : Instr, i.length = i.opcode.toNat / 64 + 1) ∧
  (∀ op : Byte, op.toNat / 64 = 3 ↔ 0xC0 ≤ op.toNat) ∧
  (∀ op : Byte, 0xC0 ≤ op.toNat → handler op = none)

/-- R202 over all instructions: the first register operand that names no register raises InvalidRegister with that byte, with no
other effect; and InvalidRegister is raised for no other cause. That a jump's register is checked whether or not the jump is taken
is the spec's decision D14, and that all else is kept D11. -/
def Obligations.IllFormedInstructionRaisesInvalidRegister : Prop :=
  (∀ (i : Instr) (s : State) (r : Byte), i.registerOperands.find? (fun b => decide (8 ≤ b.toNat)) = some r →
    FaultsWith i (.invalidRegister r) s) ∧
  (∀ (i : Instr) (s t : State) (r : Byte) (p : PcWord), s.err = none → exec i s = .next t →
    t.err = some ⟨.invalidRegister r, p⟩ → i.registerOperands.find? (fun b => decide (8 ≤ b.toNat)) = some r)

/-! ## The tick -/

/-- R92: where the bytes from pc on decode to i, a tick in RUNNING is i executed in the state whose ir holds i's opcode. The pc moves
in i's own meaning. -/
def Obligations.StepRunsDecodedInstruction : Prop :=
  ∀ (s : State) (i : Instr) (rest : List Byte), s.run = .running → decode s.bytesFromPc = .ok (i, rest) →
    step s = exec i { s with ir := i.opcode }

/-- Placing a table word at pc makes the next tick run the instruction the decoder reads from it, and changes no byte outside its
three. The model's own convention (log 13). -/
def Obligations.StepRunsPlacedWord : Prop :=
  ∀ (s : State) (nbits w : Nat) (i : Instr), s.run = .running → s.pc.toNat ≤ 253 → decodeTableWord nbits w = some i →
    step (s.withFetchWord nbits w) = exec i { s.withFetchWord nbits w with ir := i.opcode } ∧
    (∀ a, a < s.pc.toNat ∨ s.pc.toNat + 3 ≤ a → (s.withFetchWord nbits w).byteAt a = s.byteAt a) ∧
    s.withFetchWord nbits w = { s with mem := (s.withFetchWord nbits w).mem }

/-- R91, D21: in HALTED no number of requested ticks changes anything. -/
def Obligations.HaltedTicksChangeNothing : Prop :=
  ∀ (s : State) (n : Nat), s.run = .halted → Host.Core.run Sys2Proof.core n s = .next s

/-- R93, decision D1: at pc = 256 the opcode fetch raises AddressOutOfRange(256), ir and all else kept; pc never wraps. -/
def Obligations.OpcodeFetchPastMemoryFaults : Prop :=
  ∀ s : State, s.run = .running → s.pc = 256#9 →
    step s = .next { s with err := some ⟨.addressOutOfRange 256, 256#9⟩, run := .halted }

/-- R94, decision D1: an instruction with an operand at pc = 255, or with two at pc = 254, raises AddressOutOfRange(256) on the
operand fetch, whatever its register operands would be; ir holds the opcode. -/
def Obligations.OperandFetchPastMemoryFaults : Prop :=
  ∀ (s : State) (h : Handler), s.run = .running → handler (s.byteAt s.pc.toNat) = some h →
    (s.pc = 255#9 ∧ 1 ≤ h.operandCount ∨ s.pc = 254#9 ∧ h.operandCount = 2) →
    step s = .next { s with
      ir := s.byteAt s.pc.toNat
      err := some ⟨.addressOutOfRange 256, s.pc⟩
      run := .halted }

/-- Any number of ticks from any state answers a next state. That nothing stalls in RUNNING is R241. That a tick that faults answers a
next state is the model's own choice, log 1 (DEDUCED from R208); that a tick requested in HALTED answers one, the same state, is its choice
too, log 2 (DEDUCED: R91 gives HALTED no step, and decision D21 lets the request do nothing). -/
def Obligations.EveryTickAnswersNext : Prop :=
  ∀ (s : State) (n : Nat), ∃ t : State, Host.Core.run Sys2Proof.core n s = .next t

/-- R208, R209, decision D11: after any tick that faults the record names the pc the tick began at, the machine is halted, ir holds the
opcode if it was fetched, and every other piece of state is as the tick found it. -/
def Obligations.FaultIsPrecise : Prop :=
  ∀ (s t : State) (r : FaultRecord), s.run = .running → s.err = none → step s = .next t → t.err = some r →
    r.pc = s.pc ∧
    t = { s with
      ir := if s.pc.toNat ≤ 255 then s.byteAt s.pc.toNat else s.ir
      err := some r
      run := .halted }

/-- R101: a run ends without a fault only at the opcode of HLT. -/
def Obligations.OnlyHltEndsWithoutFault : Prop :=
  ∀ s t : State, s.run = .running → s.err = none → step s = .next t → t.normalEnd →
    s.pc.toNat ≤ 255 ∧ s.byteAt s.pc.toNat = 0x01#8

/-! ## Invariants -/

/-- Every step from a legal state leads to a legal state: pc 0 to 256, fl[7:3] zero, memory canonical, IM and IS zero, a fault record
only in a halted machine and for its pc. -/
def Obligations.StepKeepsStateLegal : Prop :=
  ∀ s t : State, s.Inv → step s = .next t → t.Inv

/-- The reset state is legal. -/
def Obligations.ResetStateIsLegal : Prop := State.reset.Inv

/-- Whatever the loader writes, in or out of range, the launch state is legal. -/
def Obligations.LaunchStateIsLegal : Prop := ∀ image : List (Nat × Byte), (launch image).Inv

/-- Every state of every run of every loaded image is legal. -/
def Obligations.EveryRunStaysLegal : Prop :=
  ∀ (image : List (Nat × Byte)) (n : Nat) (t : State),
    Host.Core.run Sys2Proof.core n (launch image) = .next t → t.Inv

/-! ## Rules over the whole machine -/

/-- R33, decision D10: no tick writes IM or IS, and no tick reads them: with other values there, the same step follows. -/
def Obligations.InterruptRegistersAreInert : Prop :=
  ∀ (s t : State) (v w : Byte), step s = .next t →
    t.im = s.im ∧ t.is = s.is ∧ step { s with im := v, is := w } = .next { t with im := v, is := w }

/-- R30: only CMP and IRET write the flags. -/
def Obligations.FlagsWrittenByCmpAndIretOnly : Prop :=
  ∀ (i : Instr) (s t : State), exec i s = .next t → t.fl ≠ s.fl → i = .iret ∨ ∃ a b, i = .cmp a b

/-- R51: only ST, PUSH, CALL and INT change memory, and only the byte at the ST's address or at the cells pushed. -/
def Obligations.MemoryWrittenByStoresAndPushesOnly : Prop :=
  ∀ (i : Instr) (s t : State) (addr : Nat), exec i s = .next t → t.byteAt addr ≠ s.byteAt addr →
    (∃ a b : Reg, i = .st (regByte a) (regByte b) ∧ addr = indirectAddress a s) ∨
    (∃ a, (i = .push a ∨ i = .call a ∨ i = .int a) ∧ addr + 1 = s.sp.toNat) ∨
    (∃ a, i = .int a ∧ addr + 2 = s.sp.toNat)

/-- R22: the only general register an instruction writes is the one operand A names, and only the fourteen listed write one. -/
def Obligations.RegistersWrittenThroughOperandAOnly : Prop :=
  ∀ (i : Instr) (s t : State) (r : Reg), exec i s = .next t → t.reg r ≠ s.reg r →
    i.operandBytes.head? = some (regByte r) ∧
    ∃ a b, i = .inc a ∨ i = .dec a ∨ i = .add a b ∨ i = .sub a b ∨ i = .mul a b ∨ i = .div a b ∨ i = .mod a b ∨
      i = .or a b ∨ i = .xor a b ∨ i = .and a b ∨ i = .not a ∨ i = .ldi a b ∨ i = .ld a b ∨ i = .pop a

/-- R32: SP is written only by pushes (down by 1, by 2 for INT) and pops (up by 1, by 2 for IRET), and never wraps. -/
def Obligations.StackPointerMovesByPushesAndPopsOnly : Prop :=
  ∀ (i : Instr) (s t : State), exec i s = .next t → t.sp ≠ s.sp →
    (t.sp.toNat + 1 = s.sp.toNat ∧ ∃ a, i = .push a ∨ i = .call a) ∨
    (t.sp.toNat + 2 = s.sp.toNat ∧ ∃ a, i = .int a) ∨
    (t.sp.toNat = s.sp.toNat + 1 ∧ (i = .ret ∨ ∃ a, i = .pop a)) ∨
    (t.sp.toNat = s.sp.toNat + 2 ∧ i = .iret)

/-- R39, R150: a PRN of a register appends one Num event of its value, a PRA of a register one Chr event, and any other instruction,
a print that names no register among them, leaves the output as it was. The form of the events is the spec's own decision D17
(log 12). -/
def Obligations.OutputGrowsByPrintsOnly : Prop :=
  ∀ (i : Instr) (s t : State), exec i s = .next t →
    (∀ a : Reg, i = .prn (regByte a) → t.out = s.out ++ [.num (s.reg a)]) ∧
    (∀ a : Reg, i = .pra (regByte a) → t.out = s.out ++ [.chr (s.reg a)]) ∧
    ((∀ a : Reg, i ≠ .prn (regByte a) ∧ i ≠ .pra (regByte a)) → t.out = s.out)

/-- R96: an instruction whose handler does not set PC, completing without a fault where it fits in memory, moves pc by its length and
no more; the sum does not wrap. -/
def Obligations.PcAdvancesByLength : Prop :=
  ∀ (i : Instr) (s t : State), i.setsPc = false → s.err = none → s.pc.toNat + i.length ≤ 256 →
    exec i s = .next t → t.err = none → t.pc.toNat = s.pc.toNat + i.length

/-! ## Reset and the loader -/

/-- The state after reset (R41). pc, run and memory are the source's; the other values are the spec's own decisions: sp D2, the
registers D3, err D15, out D17 (log 3). -/
def Obligations.ResetStateValues : Prop :=
  State.reset.pc = 0#9 ∧ State.reset.run = .running ∧ (∀ a, State.reset.byteAt a = 0#8) ∧
  (∀ r, State.reset.reg r = 0#8) ∧ State.reset.ir = 0#8 ∧ State.reset.fl = 0#8 ∧ State.reset.sp = 0xF4#8 ∧
  State.reset.im = 0#8 ∧ State.reset.is = 0#8 ∧ State.reset.err = none ∧ State.reset.out = []

/-- R64: an image whose addresses are all 0 to 255 is loaded whole: a cell holds the last byte the image gives it, or 0, and the loader
changes nothing but memory. -/
def Obligations.LoaderWritesInOrder : Prop :=
  ∀ image : List (Nat × Byte), (∀ c ∈ image, c.1 < 256) →
    (∀ a, (launch image).byteAt a =
      ((image.reverse.find? (fun c => decide (c.1 = a))).map (fun c => c.2)).getD 0#8) ∧
    launch image = { State.reset with mem := (launch image).mem }

/-- R64, decision D19: the first address outside 0 to 255 halts the machine before any tick with err = (AddressOutOfRange, address, 0);
the earlier writes stay, the later ones are not applied. -/
def Obligations.LoaderBadAddressHalts : Prop :=
  ∀ (image later : List (Nat × Byte)) (addr : Nat) (v : Byte), (∀ c ∈ image, c.1 < 256) → 256 ≤ addr →
    launch (image ++ (addr, v) :: later) =
      { launch image with err := some ⟨.addressOutOfRange addr, 0#9⟩, run := .halted }

/-! ## The engine's instructions -/

/-- R99: NOP changes nothing but pc, and ir by its fetch; at address 255 pc becomes 256. -/
def Obligations.NopAdvancesOnly : Prop :=
  encode .nop = [0b00000000#8] ∧
  (∀ s : State, exec .nop s = .next { s with pc := s.pc + 1#9 }) ∧
  (∀ s : State, s.run = .running → s.pc.toNat ≤ 255 → s.byteAt s.pc.toNat = 0x00#8 →
    step s = .next { s with ir := 0x00#8, pc := BitVec.ofNat 9 (s.pc.toNat + 1) })

/-- R100, decision D16: HLT halts and moves pc past itself; err and all else keep their values. -/
def Obligations.HltHaltsPastItself : Prop :=
  encode .hlt = [0b00000001#8] ∧
  (∀ s : State, exec .hlt s = .next { s with run := .halted, pc := s.pc + 1#9 }) ∧
  (∀ s : State, s.run = .running → s.pc.toNat ≤ 255 → s.byteAt s.pc.toNat = 0x01#8 →
    step s = .next { s with ir := 0x01#8, run := .halted, pc := BitVec.ofNat 9 (s.pc.toNat + 1) })

/-! ## The ALU -/

/-- R114, R115: INC and DEC add and subtract 1 modulo 256. -/
def Obligations.IncDecWrapModulo256 : Prop :=
  (∀ a : Byte, encode (.inc a) = [0b01111000#8, a] ∧ encode (.dec a) = [0b01111001#8, a]) ∧
  (∀ (a : Reg) (s : State), ∃ t, exec (.inc (regByte a)) s = .next t ∧
    (t.reg a).toNat = ((s.reg a).toNat + 1) % 256 ∧ t.pc = s.pc + 2#9 ∧ RegisterFrame a s t) ∧
  (∀ (a : Reg) (s : State), ∃ t, exec (.dec (regByte a)) s = .next t ∧
    ((t.reg a).toNat : Int) = ((s.reg a).toNat - 1 : Int) % 256 ∧ t.pc = s.pc + 2#9 ∧ RegisterFrame a s t) ∧
  ChecksOperandA .inc ∧ ChecksOperandA .dec

/-- R116, R117, R118: ADD, SUB and MUL modulo 256 of the unsigned values, a = b among the operands. -/
def Obligations.AddSubMulWrapModulo256 : Prop :=
  (∀ a b : Byte, encode (.add a b) = [0b10101000#8, a, b] ∧ encode (.sub a b) = [0b10101001#8, a, b] ∧
    encode (.mul a b) = [0b10101010#8, a, b]) ∧
  (∀ (a b : Reg) (s : State), ∃ t, exec (.add (regByte a) (regByte b)) s = .next t ∧
    (t.reg a).toNat = ((s.reg a).toNat + (s.reg b).toNat) % 256 ∧ t.pc = s.pc + 3#9 ∧ RegisterFrame a s t) ∧
  (∀ (a b : Reg) (s : State), ∃ t, exec (.sub (regByte a) (regByte b)) s = .next t ∧
    ((t.reg a).toNat : Int) = ((s.reg a).toNat - (s.reg b).toNat : Int) % 256 ∧ t.pc = s.pc + 3#9 ∧ RegisterFrame a s t) ∧
  (∀ (a b : Reg) (s : State), ∃ t, exec (.mul (regByte a) (regByte b)) s = .next t ∧
    (t.reg a).toNat = ((s.reg a).toNat * (s.reg b).toNat) % 256 ∧ t.pc = s.pc + 3#9 ∧ RegisterFrame a s t) ∧
  ChecksOperandsAB .add ∧ ChecksOperandsAB .sub ∧ ChecksOperandsAB .mul

/-- R119, R120, R113 with the rounding of decision D6: DIV gives the floored quotient and MOD the remainder, p = q * quotient + remainder
with remainder < q; a zero divisor raises DivisionByZero with the dividend unchanged. -/
def Obligations.DivModGiveQuotientAndRemainder : Prop :=
  (∀ a b : Byte, encode (.div a b) = [0b10101011#8, a, b] ∧ encode (.mod a b) = [0b10101100#8, a, b]) ∧
  (∀ (a b : Reg) (s : State), s.reg b ≠ 0#8 → ∃ t u,
    exec (.div (regByte a) (regByte b)) s = .next t ∧ exec (.mod (regByte a) (regByte b)) s = .next u ∧
    (s.reg a).toNat = (s.reg b).toNat * (t.reg a).toNat + (u.reg a).toNat ∧ (u.reg a).toNat < (s.reg b).toNat ∧
    (t.reg a).toNat = (s.reg a).toNat / (s.reg b).toNat ∧
    t.pc = s.pc + 3#9 ∧ RegisterFrame a s t ∧ u.pc = s.pc + 3#9 ∧ RegisterFrame a s u) ∧
  (∀ (a b : Reg) (s : State), s.reg b = 0#8 →
    FaultsWith (.div (regByte a) (regByte b)) .divisionByZero s ∧ FaultsWith (.mod (regByte a) (regByte b)) .divisionByZero s) ∧
  ChecksOperandsAB .div ∧ ChecksOperandsAB .mod

/-- R121, R122, R123: OR, XOR and AND, bit by bit. -/
def Obligations.OrXorAndActBitwise : Prop :=
  (∀ a b : Byte, encode (.or a b) = [0b10110001#8, a, b] ∧ encode (.xor a b) = [0b10110010#8, a, b] ∧
    encode (.and a b) = [0b10110011#8, a, b]) ∧
  (∀ (a b : Reg) (s : State), ∃ t, exec (.or (regByte a) (regByte b)) s = .next t ∧
    (∀ k, (t.reg a).getLsbD k = ((s.reg a).getLsbD k || (s.reg b).getLsbD k)) ∧ t.pc = s.pc + 3#9 ∧ RegisterFrame a s t) ∧
  (∀ (a b : Reg) (s : State), ∃ t, exec (.xor (regByte a) (regByte b)) s = .next t ∧
    (∀ k, (t.reg a).getLsbD k = ((s.reg a).getLsbD k != (s.reg b).getLsbD k)) ∧ t.pc = s.pc + 3#9 ∧ RegisterFrame a s t) ∧
  (∀ (a b : Reg) (s : State), ∃ t, exec (.and (regByte a) (regByte b)) s = .next t ∧
    (∀ k, (t.reg a).getLsbD k = ((s.reg a).getLsbD k && (s.reg b).getLsbD k)) ∧ t.pc = s.pc + 3#9 ∧ RegisterFrame a s t) ∧
  ChecksOperandsAB .or ∧ ChecksOperandsAB .xor ∧ ChecksOperandsAB .and

/-- R124, decision D27: NOT gives 255 - v, each of the 8 bits inverted. -/
def Obligations.NotComplementsTheByte : Prop :=
  (∀ a : Byte, encode (.not a) = [0b01110000#8, a]) ∧
  (∀ (a : Reg) (s : State), ∃ t, exec (.not (regByte a)) s = .next t ∧
    (t.reg a).toNat = 255 - (s.reg a).toNat ∧ (∀ k < 8, (t.reg a).getLsbD k = !(s.reg a).getLsbD k) ∧
    t.pc = s.pc + 2#9 ∧ RegisterFrame a s t) ∧
  ChecksOperandA .not

/-- R125, with the unsigned order of decision D5 and the flag positions of decision D4: CMP writes E, G and L each from its own condition,
keeps fl[7:3], and writes no register; exactly one of the three is 1. -/
def Obligations.CmpWritesTheThreeFlags : Prop :=
  (∀ a b : Byte, encode (.cmp a b) = [0b10100000#8, a, b]) ∧
  (∀ (a b : Reg) (s : State), ∃ t, exec (.cmp (regByte a) (regByte b)) s = .next t ∧
    t.fl.getLsbD 0 = decide ((s.reg a).toNat = (s.reg b).toNat) ∧
    t.fl.getLsbD 1 = decide ((s.reg a).toNat > (s.reg b).toNat) ∧
    t.fl.getLsbD 2 = decide ((s.reg a).toNat < (s.reg b).toNat) ∧
    (∀ k, 3 ≤ k → t.fl.getLsbD k = s.fl.getLsbD k) ∧
    (s.fl &&& 0xF8#8 = 0#8 → t.fl = 0x01#8 ∨ t.fl = 0x02#8 ∨ t.fl = 0x04#8) ∧
    t.pc = s.pc + 3#9 ∧ RegistersKept s t ∧ MemoryKept s t ∧ t.sp = s.sp ∧ t.out = s.out ∧ EngineKept s t) ∧
  ChecksOperandsAB .cmp

/-! ## Load and store -/

/-- R140: LDI writes the immediate byte as it is; the immediate is never checked. -/
def Obligations.LdiLoadsTheImmediate : Prop :=
  (∀ a i : Byte, encode (.ldi a i) = [0b10011001#8, a, i]) ∧
  (∀ (a : Reg) (i : Byte) (s : State), ∃ t, exec (.ldi (regByte a) i) s = .next t ∧
    t.reg a = i ∧ t.pc = s.pc + 3#9 ∧ RegisterFrame a s t) ∧
  (∀ i : Byte, ChecksOperandA (fun a => .ldi a i))

/-- R141: LD copies the byte at the address regB held, before regA is written; memory is unchanged and no address faults. -/
def Obligations.LdLoadsTheAddressedByte : Prop :=
  (∀ a b : Byte, encode (.ld a b) = [0b10011000#8, a, b]) ∧
  (∀ (a b : Reg) (s : State), ∃ t, exec (.ld (regByte a) (regByte b)) s = .next t ∧
    t.reg a = s.byteAt (s.reg b).toNat ∧ t.pc = s.pc + 3#9 ∧ RegisterFrame a s t) ∧
  ChecksOperandsAB .ld

/-- R142: ST writes regB's value at the address regA holds, and no other byte of memory; no register is written. -/
def Obligations.StStoresOneByte : Prop :=
  (∀ a b : Byte, encode (.st a b) = [0b10011010#8, a, b]) ∧
  (∀ (a b : Reg) (s : State), ∃ t, exec (.st (regByte a) (regByte b)) s = .next t ∧
    indirectAddress a s = (s.reg a).toNat ∧ t.byteAt (indirectAddress a s) = s.reg b ∧
    MemoryKeptExcept (indirectAddress a s) s t ∧
    t.pc = s.pc + 3#9 ∧ RegistersKept s t ∧ t.fl = s.fl ∧ t.sp = s.sp ∧ t.out = s.out ∧ EngineKept s t) ∧
  ChecksOperandsAB .st

/-! ## Output -/

/-- R151, R152 with the event form of decision D17: PRN appends Num(x[a]) and PRA Chr(x[a]), and only pc changes beside. -/
def Obligations.PrnPraEmitOneEvent : Prop :=
  (∀ a : Byte, encode (.prn a) = [0b01000011#8, a] ∧ encode (.pra a) = [0b01000010#8, a]) ∧
  (∀ (a : Reg) (s : State), exec (.prn (regByte a)) s = .next { s with out := s.out ++ [.num (s.reg a)], pc := s.pc + 2#9 }) ∧
  (∀ (a : Reg) (s : State), exec (.pra (regByte a)) s = .next { s with out := s.out ++ [.chr (s.reg a)], pc := s.pc + 2#9 }) ∧
  ChecksOperandA .prn ∧ ChecksOperandA .pra

/-! ## Stack and call -/

/-- R162, R160: PUSH moves SP down by one and writes the register at the new SP, and no other byte; at SP = 0 it raises StackFault, after
the register check. -/
def Obligations.PushWritesBelowSp : Prop :=
  (∀ a : Byte, encode (.push a) = [0b01001101#8, a]) ∧
  (∀ (a : Reg) (s : State), s.sp ≠ 0#8 → ∃ t, exec (.push (regByte a)) s = .next t ∧
    t.sp.toNat + 1 = s.sp.toNat ∧ t.byteAt (s.sp - 1#8).toNat = s.reg a ∧ MemoryKeptExcept (s.sp - 1#8).toNat s t ∧
    (s.sp - 1#8).toNat = t.sp.toNat ∧
    t.pc = s.pc + 2#9 ∧ RegistersKept s t ∧ t.fl = s.fl ∧ t.out = s.out ∧ EngineKept s t) ∧
  (∀ (a : Reg) (s : State), s.sp = 0#8 → FaultsWith (.push (regByte a)) .stackFault s) ∧
  ChecksOperandA .push

/-- R163, R161, decision D24 for SP = 255: POP reads the byte at SP into the register and moves SP up by one; memory is unchanged. -/
def Obligations.PopReadsAtSp : Prop :=
  (∀ a : Byte, encode (.pop a) = [0b01001100#8, a]) ∧
  (∀ (a : Reg) (s : State), s.sp ≠ 255#8 → ∃ t, exec (.pop (regByte a)) s = .next t ∧
    t.reg a = s.byteAt s.sp.toNat ∧ t.sp.toNat = s.sp.toNat + 1 ∧
    t.pc = s.pc + 2#9 ∧ RegistersKeptExcept a s t ∧ MemoryKept s t ∧ t.fl = s.fl ∧ t.out = s.out ∧ EngineKept s t) ∧
  (∀ (a : Reg) (s : State), s.sp = 255#8 → FaultsWith (.pop (regByte a)) .stackFault s) ∧
  ChecksOperandA .pop

/-- R164, decision D20 for a return address past 255: CALL pushes pc + 2 and jumps to the register's value. -/
def Obligations.CallPushesTheReturnAddress : Prop :=
  (∀ a : Byte, encode (.call a) = [0b01001000#8, a]) ∧
  (∀ (a : Reg) (s : State), s.pc.toNat ≤ 253 → s.sp ≠ 0#8 → ∃ t, exec (.call (regByte a)) s = .next t ∧
    t.pc.toNat = (s.reg a).toNat ∧ t.sp.toNat + 1 = s.sp.toNat ∧ (s.sp - 1#8).toNat = t.sp.toNat ∧
    (t.byteAt (s.sp - 1#8).toNat).toNat = s.pc.toNat + 2 ∧ MemoryKeptExcept (s.sp - 1#8).toNat s t ∧
    RegistersKept s t ∧ t.fl = s.fl ∧ t.out = s.out ∧ EngineKept s t) ∧
  (∀ (a : Reg) (s : State), 254 ≤ s.pc.toNat → FaultsWith (.call (regByte a)) (.addressOutOfRange (s.pc.toNat + 2)) s) ∧
  (∀ (a : Reg) (s : State), s.pc.toNat ≤ 253 → s.sp = 0#8 → FaultsWith (.call (regByte a)) .stackFault s) ∧
  ChecksOperandA .call

/-- R165, decision D24 for SP = 255: RET pops the byte at SP into pc. -/
def Obligations.RetJumpsToThePoppedByte : Prop :=
  encode .ret = [0b00001001#8] ∧
  (∀ s : State, s.sp ≠ 255#8 → ∃ t, exec .ret s = .next t ∧
    t.pc.toNat = (s.byteAt s.sp.toNat).toNat ∧ t.sp.toNat = s.sp.toNat + 1 ∧
    RegistersKept s t ∧ MemoryKept s t ∧ t.fl = s.fl ∧ t.out = s.out ∧ EngineKept s t) ∧
  (∀ s : State, s.sp = 255#8 → FaultsWith .ret .stackFault s)

/-! ## Branches -/

/-- R181: JMP writes the register's value into pc and nothing else. -/
def Obligations.JmpRedirectsAlways : Prop :=
  (∀ a : Byte, encode (.jmp a) = [0b01010000#8, a]) ∧
  (∀ (a : Reg) (s : State), ∃ p : PcWord, p.toNat = (s.reg a).toNat ∧ exec (.jmp (regByte a)) s = .next { s with pc := p }) ∧
  ChecksOperandA .jmp

/-- R182 to R185, with the flag positions of decision D4 and the check of decision D14: a conditional jump tests its own bit only; taken, pc
becomes the register's value; not taken, pc + 2; nothing else changes, and the register is checked in either case. -/
def Obligations.ConditionalJumpsTestOneFlag : Prop :=
  (∀ a : Byte, encode (.jeq a) = [0b01010001#8, a] ∧ encode (.jne a) = [0b01010010#8, a] ∧
    encode (.jlt a) = [0b01010011#8, a] ∧ encode (.jgt a) = [0b01010100#8, a]) ∧
  (∀ (a : Reg) (s : State), ∃ p : PcWord, p.toNat = (s.reg a).toNat ∧
    exec (.jeq (regByte a)) s = .next { s with pc := if s.fl.getLsbD 0 = true then p else s.pc + 2#9 } ∧
    exec (.jne (regByte a)) s = .next { s with pc := if s.fl.getLsbD 0 = false then p else s.pc + 2#9 } ∧
    exec (.jlt (regByte a)) s = .next { s with pc := if s.fl.getLsbD 2 = true then p else s.pc + 2#9 } ∧
    exec (.jgt (regByte a)) s = .next { s with pc := if s.fl.getLsbD 1 = true then p else s.pc + 2#9 }) ∧
  ChecksOperandA .jeq ∧ ChecksOperandA .jne ∧ ChecksOperandA .jlt ∧ ChecksOperandA .jgt

/-! ## The software interrupt -/

/-- R190, R191, by decisions D7, D9 and D20: INT pushes pc + 2, then fl, and jumps to INT_VECTOR whatever the register holds; FL keeps its
value; a return address past 255 is reported before a full stack, and no push is made alone. -/
def Obligations.IntEntersTheHandler : Prop :=
  (∀ a : Byte, encode (.int a) = [0b01001010#8, a]) ∧
  (∀ (a : Reg) (s : State), s.pc.toNat ≤ 253 → 2 ≤ s.sp.toNat → ∃ t, exec (.int (regByte a)) s = .next t ∧
    t.pc.toNat = Config.intVector.toNat ∧ t.sp.toNat + 2 = s.sp.toNat ∧
    (s.sp - 1#8).toNat = t.sp.toNat + 1 ∧ (s.sp - 1#8 - 1#8).toNat = t.sp.toNat ∧
    (t.byteAt (s.sp - 1#8).toNat).toNat = s.pc.toNat + 2 ∧ t.byteAt (s.sp - 1#8 - 1#8).toNat = s.fl ∧
    (∀ addr, addr ≠ (s.sp - 1#8).toNat → addr ≠ (s.sp - 1#8 - 1#8).toNat → t.byteAt addr = s.byteAt addr) ∧
    RegistersKept s t ∧ t.fl = s.fl ∧ t.out = s.out ∧ EngineKept s t) ∧
  (∀ (a : Reg) (s : State), 254 ≤ s.pc.toNat → FaultsWith (.int (regByte a)) (.addressOutOfRange (s.pc.toNat + 2)) s) ∧
  (∀ (a : Reg) (s : State), s.pc.toNat ≤ 253 → s.sp.toNat < 2 → FaultsWith (.int (regByte a)) .stackFault s) ∧
  ChecksOperandA .int

/-- R192, by decision D8: IRET pops the flags byte, keeping bits 2:0, then the return address; memory and the registers are unchanged, and
no pop is made alone. -/
def Obligations.IretReturnsFromTheHandler : Prop :=
  encode .iret = [0b00001011#8] ∧
  (∀ s : State, s.sp.toNat ≤ 253 → ∃ t, exec .iret s = .next t ∧
    (∀ k, t.fl.getLsbD k = (decide (k < 3) && (s.byteAt s.sp.toNat).getLsbD k)) ∧
    t.pc.toNat = (s.byteAt (s.sp.toNat + 1)).toNat ∧ t.sp.toNat = s.sp.toNat + 2 ∧
    RegistersKept s t ∧ MemoryKept s t ∧ t.out = s.out ∧ EngineKept s t) ∧
  (∀ s : State, 254 ≤ s.sp.toNat → FaultsWith .iret .stackFault s)

/-! ## Pairs of instructions -/

/-- R163's sentence on the pair: PUSH r then POP r2, the same register included, gives r2 the pushed value and SP its value back. -/
def Obligations.PushThenPopMovesTheValue : Prop :=
  ∀ (a b : Reg) (s t : State), s.sp ≠ 0#8 → exec (.push (regByte a)) s = .next t →
    ∃ u, exec (.pop (regByte b)) t = .next u ∧ u.reg b = s.reg a ∧ u.sp = s.sp ∧ RegistersKeptExcept b s u

/-- R167: after a CALL, a RET in any later state whose SP and return cell are as the CALL left them returns to the address after the CALL
and its operand, with SP as before the CALL. -/
def Obligations.CallThenRetReturns : Prop :=
  ∀ (a : Reg) (s t u : State), s.pc.toNat ≤ 253 → s.sp ≠ 0#8 → exec (.call (regByte a)) s = .next t →
    u.sp = t.sp → u.byteAt u.sp.toNat = t.byteAt t.sp.toNat →
    ∃ v, exec .ret u = .next v ∧ v.pc.toNat = s.pc.toNat + 2 ∧ v.sp = s.sp

/-- R190, R192, R214 by decisions D7 and D8: after an INT, an IRET in any later state whose SP and two stack cells are as the INT left
them, whatever its flags, returns to the address after the INT with the flags and SP of before it. -/
def Obligations.IntThenIretRestores : Prop :=
  ∀ (a : Reg) (s t u : State), s.pc.toNat ≤ 253 → 2 ≤ s.sp.toNat → s.fl &&& 0xF8#8 = 0#8 →
    exec (.int (regByte a)) s = .next t →
    u.sp = t.sp → u.byteAt u.sp.toNat = t.byteAt t.sp.toNat → u.byteAt (u.sp.toNat + 1) = t.byteAt (t.sp.toNat + 1) →
    ∃ v, exec .iret u = .next v ∧ v.pc.toNat = s.pc.toNat + 2 ∧ v.sp = s.sp ∧ v.fl = s.fl

/-- R62: a byte stored where the next tick fetches is the opcode that tick fetches. -/
def Obligations.StoredByteIsFetchedNext : Prop :=
  ∀ (a b : Reg) (s t : State), s.run = .running → exec (.st (regByte a) (regByte b)) s = .next t →
    t.pc.toNat = indirectAddress a s → ∃ u, step t = .next u ∧ u.ir = s.reg b
end

