-- ==== Sys2Proof/Laws/Decode.lean ====
section
/-! SUPPORT. What the opcode map can answer for a byte. -/

namespace Sys2Proof.Machine

/-- The bytes of what a handler makes: the opcode it was found for, then its operand bytes. -/
theorem handler_builds {op : Byte} {h : Handler} (hh : handler op = some h) :
    match h with
    | .f0 i => encode i = [op]
    | .f1 mk => ∀ a, encode (mk a) = [op, a]
    | .f2 mk => ∀ a b, encode (mk a b) = [op, a, b] := by
  unfold handler at hh
  split at hh <;> first
    | (cases hh; done)
    | (rename_i hn
       have hop : BitVec.ofNat 8 op.toNat = op := by simp
       rw [hn] at hop
       subst hop
       cases hh
       first
         | rfl
         | exact fun _ => rfl
         | exact fun _ _ => rfl)

/-- Which bytes have no handler, by their value. -/
theorem handler_none_iff {op : Byte} : handler op = none ↔ op ∉ opcodeBytes := by
  have h : ∀ n : Fin 256, handler (BitVec.ofFin n) = none ↔ BitVec.ofFin n ∉ opcodeBytes := by
    set_option maxRecDepth 4000 in decide
  exact h op.toFin

end Sys2Proof.Machine
end

