-- ==== Sys2Proof/Laws/Flags.lean ====
section
/-! SUPPORT. What setFlag writes, bit by bit. -/

namespace Sys2Proof.Machine

theorem setFlag_E_bit (b : Bool) (fl : Byte) (k : Nat) :
    (setFlag flagE b fl).getLsbD k = if k = 0 then b else fl.getLsbD k := by
  by_cases hk : k < 8
  · interval_cases k <;> cases b <;> simp [setFlag, flagE]
  · have : k ≠ 0 := by omega
    simp [this, BitVec.getLsbD_of_ge _ _ (Nat.not_lt.mp hk)]

theorem setFlag_G_bit (b : Bool) (fl : Byte) (k : Nat) :
    (setFlag flagG b fl).getLsbD k = if k = 1 then b else fl.getLsbD k := by
  by_cases hk : k < 8
  · interval_cases k <;> cases b <;> simp [setFlag, flagG]
  · have : k ≠ 1 := by omega
    simp [this, BitVec.getLsbD_of_ge _ _ (Nat.not_lt.mp hk)]

theorem setFlag_L_bit (b : Bool) (fl : Byte) (k : Nat) :
    (setFlag flagL b fl).getLsbD k = if k = 2 then b else fl.getLsbD k := by
  by_cases hk : k < 8
  · interval_cases k <;> cases b <;> simp [setFlag, flagL]
  · have : k ≠ 2 := by omega
    simp [this, BitVec.getLsbD_of_ge _ _ (Nat.not_lt.mp hk)]

/-- Every bit of the flags after a comparison: the three flags from their own conditions, the rest as before. -/
theorem compareFlags_bit (p q fl : Byte) (k : Nat) :
    (compareFlags p q fl).getLsbD k =
      if k = 2 then decide (p.toNat < q.toNat) else if k = 1 then decide (p.toNat > q.toNat)
      else if k = 0 then decide (p.toNat = q.toNat) else fl.getLsbD k := by
  simp only [compareFlags, setFlag_L_bit, setFlag_G_bit, setFlag_E_bit]

end Sys2Proof.Machine
end

