-- ==== Sys2Proof/Laws/Memory.lean ====
section
/-! SUPPORT. The laws of the memory list: read after write, and every operation keeps the canonical form. The read laws hold of any
list, canonical or not. -/

namespace Sys2Proof.Machine

@[simp] theorem Memory.read_nil (a : Nat) : Memory.read [] a = 0#8 := rfl

theorem Memory.read_eq_reset_of_not_mem {m : Memory} {a : Nat} (h : ∀ c ∈ m, c.1 ≠ a) :
    m.read a = Config.memoryReset := by
  induction m with
  | nil => rfl
  | cons c m ih =>
    have hc : c.1 ≠ a := h c (by simp)
    simpa [Memory.read, hc] using ih (fun d hd => h d (by simp [hd]))

theorem Memory.read_insert_same {m : Memory} {a : Nat} (v : Byte) (h : ∀ c ∈ m, c.1 ≠ a) :
    Memory.read (Memory.insert a v m) a = v := by
  induction m with
  | nil => simp [Memory.insert, Memory.read]
  | cons c m ih =>
    have hc : c.1 ≠ a := h c (by simp)
    have hm := ih (fun d hd => h d (by simp [hd]))
    by_cases hlt : a < c.1 <;> simp [Memory.insert, Memory.read, hlt, hc, hm]

theorem Memory.read_insert_ne (m : Memory) {a k : Nat} (v : Byte) (h : k ≠ a) :
    Memory.read (Memory.insert a v m) k = m.read k := by
  induction m with
  | nil => simp [Memory.insert, Memory.read, Ne.symm h]
  | cons c m ih =>
    by_cases hlt : a < c.1
    · simp [Memory.insert, Memory.read, hlt, Ne.symm h]
    · simp [Memory.insert, Memory.read, hlt, ih]

theorem Memory.erase_not_mem (m : Memory) (a : Nat) : ∀ c ∈ m.erase a, c.1 ≠ a := by
  intro c hc
  simpa using (List.mem_filter.mp hc).2

theorem Memory.read_erase_ne (m : Memory) {a k : Nat} (h : k ≠ a) : (m.erase a).read k = m.read k := by
  induction m with
  | nil => rfl
  | cons c m ih =>
    simp only [Memory.erase] at ih ⊢
    by_cases hc : c.1 = a
    · have hk : ¬ a = k := fun e => h e.symm
      simp [Memory.read, hc, hk, ih]
    · simp [Memory.read, hc, ih]

/-- A read after a write to the same address gives the value written. -/
@[simp] theorem Memory.read_write_same (m : Memory) (a : Nat) (v : Byte) : (m.write a v).read a = v := by
  unfold Memory.write
  split
  · rename_i hv
    exact hv ▸ Memory.read_eq_reset_of_not_mem (m.erase_not_mem a)
  · exact Memory.read_insert_same v (m.erase_not_mem a)

/-- A write leaves every other address alone. -/
theorem Memory.read_write_ne (m : Memory) {a k : Nat} (v : Byte) (h : k ≠ a) :
    (m.write a v).read k = m.read k := by
  unfold Memory.write
  split
  · exact m.read_erase_ne h
  · rw [Memory.read_insert_ne _ v h, m.read_erase_ne h]

/-! ## The canonical form -/

theorem Memory.wf_nil : Memory.wf [] := by simp [Memory.wf]

theorem Memory.wf_erase {m : Memory} (h : m.wf) (a : Nat) : (m.erase a).wf :=
  ⟨h.1.filter _, fun c hc => h.2 c (List.mem_filter.mp hc).1⟩

theorem Memory.mem_insert {m : Memory} {a : Nat} {v : Byte} {c : Host.Cell} :
    c ∈ Memory.insert a v m ↔ c = (a, v) ∨ c ∈ m := by
  induction m with
  | nil => simp [Memory.insert]
  | cons d m ih =>
    by_cases hlt : a < d.1
    · simp [Memory.insert, hlt]
    · simp only [Memory.insert, hlt, if_false, List.mem_cons, ih]
      tauto

theorem Memory.pairwise_insert {m : Memory} {a : Nat} (v : Byte)
    (h : m.Pairwise (fun c d => c.1 < d.1)) (hn : ∀ c ∈ m, c.1 ≠ a) :
    (Memory.insert a v m).Pairwise (fun c d => c.1 < d.1) := by
  induction m with
  | nil => simp [Memory.insert]
  | cons d m ih =>
    obtain ⟨hd, hm⟩ := List.pairwise_cons.mp h
    have hda : d.1 ≠ a := hn d (by simp)
    by_cases hlt : a < d.1
    · simp only [Memory.insert, hlt, if_true]
      refine List.pairwise_cons.mpr ⟨fun c hc => ?_, h⟩
      rcases List.mem_cons.mp hc with rfl | hc
      · exact hlt
      · exact hlt.trans (hd c hc)
    · simp only [Memory.insert, hlt, if_false]
      refine List.pairwise_cons.mpr ⟨fun c hc => ?_, ih hm (fun c hc => hn c (by simp [hc]))⟩
      rcases Memory.mem_insert.mp hc with rfl | hc
      · simp only; omega
      · exact hd c hc

/-- A write inside the address space keeps the canonical form. -/
theorem Memory.wf_write {m : Memory} (h : m.wf) {a : Nat} (ha : a < Config.memSize) (v : Byte) : (m.write a v).wf := by
  have he := Memory.wf_erase h a
  unfold Memory.write
  split
  · exact he
  · rename_i hv
    refine ⟨Memory.pairwise_insert v he.1 (m.erase_not_mem a), fun c hc => ?_⟩
    rcases Memory.mem_insert.mp hc with rfl | hc
    · exact ⟨ha, hv⟩
    · exact he.2 c hc

/-- Placing bytes keeps the canonical form, wherever they are placed. -/
theorem Memory.wf_place {m : Memory} (h : m.wf) (a : Nat) (vs : List Byte) : (m.place a vs).wf := by
  induction vs generalizing m a with
  | nil => exact h
  | cons v vs ih =>
    refine ih ?_ (a + 1)
    split
    · exact Memory.wf_write h ‹_› v
    · exact h

/-- Placing bytes leaves every lower address alone. -/
theorem Memory.read_place_lt (m : Memory) {a k : Nat} (vs : List Byte) (h : k < a) : (m.place a vs).read k = m.read k := by
  induction vs generalizing m a with
  | nil => rfl
  | cons v vs ih =>
    simp only [Memory.place]
    rw [ih _ (by omega)]
    split
    · exact Memory.read_write_ne m v (by omega)
    · rfl

/-- A placed byte that fits is read at its address. -/
theorem Memory.read_place_head (m : Memory) {a : Nat} (v : Byte) (vs : List Byte) (h : a < Config.memSize) :
    (m.place a (v :: vs)).read a = v := by
  simp only [Memory.place, h, if_true]
  rw [Memory.read_place_lt _ vs (by omega), Memory.read_write_same]

end Sys2Proof.Machine
end

