-- ==== Sys2Proof/Laws/State.lean ====
section
/-! SUPPORT. One lemma per field per update of the state, true by rfl, so that no proof unfolds a record update; and how a register,
a memory byte and a flag read through each update. -/

namespace Sys2Proof.Machine

/-! ## setReg -/

@[simp] theorem setReg_x (s : State) (r : Reg) (v : Byte) : (s.setReg r v).x = s.x.set r v := rfl
@[simp] theorem setReg_pc (s : State) (r : Reg) (v : Byte) : (s.setReg r v).pc = s.pc := rfl
@[simp] theorem setReg_ir (s : State) (r : Reg) (v : Byte) : (s.setReg r v).ir = s.ir := rfl
@[simp] theorem setReg_fl (s : State) (r : Reg) (v : Byte) : (s.setReg r v).fl = s.fl := rfl
@[simp] theorem setReg_sp (s : State) (r : Reg) (v : Byte) : (s.setReg r v).sp = s.sp := rfl
@[simp] theorem setReg_im (s : State) (r : Reg) (v : Byte) : (s.setReg r v).im = s.im := rfl
@[simp] theorem setReg_is (s : State) (r : Reg) (v : Byte) : (s.setReg r v).is = s.is := rfl
@[simp] theorem setReg_mem (s : State) (r : Reg) (v : Byte) : (s.setReg r v).mem = s.mem := rfl
@[simp] theorem setReg_run (s : State) (r : Reg) (v : Byte) : (s.setReg r v).run = s.run := rfl
@[simp] theorem setReg_err (s : State) (r : Reg) (v : Byte) : (s.setReg r v).err = s.err := rfl
@[simp] theorem setReg_out (s : State) (r : Reg) (v : Byte) : (s.setReg r v).out = s.out := rfl
@[simp] theorem setReg_byteAt (s : State) (r : Reg) (v : Byte) (k : Nat) : (s.setReg r v).byteAt k = s.byteAt k := rfl

/-! ## fallthrough -/

@[simp] theorem fallthrough_x (n : Nat) (s : State) : (fallthrough n s).x = s.x := rfl
@[simp] theorem fallthrough_pc (n : Nat) (s : State) : (fallthrough n s).pc = s.pc + BitVec.ofNat 9 (n + 1) := rfl
@[simp] theorem fallthrough_ir (n : Nat) (s : State) : (fallthrough n s).ir = s.ir := rfl
@[simp] theorem fallthrough_fl (n : Nat) (s : State) : (fallthrough n s).fl = s.fl := rfl
@[simp] theorem fallthrough_sp (n : Nat) (s : State) : (fallthrough n s).sp = s.sp := rfl
@[simp] theorem fallthrough_im (n : Nat) (s : State) : (fallthrough n s).im = s.im := rfl
@[simp] theorem fallthrough_is (n : Nat) (s : State) : (fallthrough n s).is = s.is := rfl
@[simp] theorem fallthrough_mem (n : Nat) (s : State) : (fallthrough n s).mem = s.mem := rfl
@[simp] theorem fallthrough_run (n : Nat) (s : State) : (fallthrough n s).run = s.run := rfl
@[simp] theorem fallthrough_err (n : Nat) (s : State) : (fallthrough n s).err = s.err := rfl
@[simp] theorem fallthrough_out (n : Nat) (s : State) : (fallthrough n s).out = s.out := rfl
@[simp] theorem fallthrough_reg (n : Nat) (s : State) (k : Reg) : (fallthrough n s).reg k = s.reg k := rfl
@[simp] theorem fallthrough_byteAt (n : Nat) (s : State) (k : Nat) : (fallthrough n s).byteAt k = s.byteAt k := rfl

/-! ## jumpTo -/

@[simp] theorem jumpTo_x (b : Byte) (s : State) : (jumpTo b s).x = s.x := rfl
@[simp] theorem jumpTo_pc (b : Byte) (s : State) : (jumpTo b s).pc = b.setWidth 9 := rfl
@[simp] theorem jumpTo_ir (b : Byte) (s : State) : (jumpTo b s).ir = s.ir := rfl
@[simp] theorem jumpTo_fl (b : Byte) (s : State) : (jumpTo b s).fl = s.fl := rfl
@[simp] theorem jumpTo_sp (b : Byte) (s : State) : (jumpTo b s).sp = s.sp := rfl
@[simp] theorem jumpTo_im (b : Byte) (s : State) : (jumpTo b s).im = s.im := rfl
@[simp] theorem jumpTo_is (b : Byte) (s : State) : (jumpTo b s).is = s.is := rfl
@[simp] theorem jumpTo_mem (b : Byte) (s : State) : (jumpTo b s).mem = s.mem := rfl
@[simp] theorem jumpTo_run (b : Byte) (s : State) : (jumpTo b s).run = s.run := rfl
@[simp] theorem jumpTo_err (b : Byte) (s : State) : (jumpTo b s).err = s.err := rfl
@[simp] theorem jumpTo_out (b : Byte) (s : State) : (jumpTo b s).out = s.out := rfl
@[simp] theorem jumpTo_reg (b : Byte) (s : State) (k : Reg) : (jumpTo b s).reg k = s.reg k := rfl
@[simp] theorem jumpTo_byteAt (b : Byte) (s : State) (k : Nat) : (jumpTo b s).byteAt k = s.byteAt k := rfl

/-! ## halt -/

@[simp] theorem halt_x (s : State) : (halt s).x = s.x := rfl
@[simp] theorem halt_pc (s : State) : (halt s).pc = s.pc := rfl
@[simp] theorem halt_ir (s : State) : (halt s).ir = s.ir := rfl
@[simp] theorem halt_fl (s : State) : (halt s).fl = s.fl := rfl
@[simp] theorem halt_sp (s : State) : (halt s).sp = s.sp := rfl
@[simp] theorem halt_im (s : State) : (halt s).im = s.im := rfl
@[simp] theorem halt_is (s : State) : (halt s).is = s.is := rfl
@[simp] theorem halt_mem (s : State) : (halt s).mem = s.mem := rfl
@[simp] theorem halt_run (s : State) : (halt s).run = .halted := rfl
@[simp] theorem halt_err (s : State) : (halt s).err = s.err := rfl
@[simp] theorem halt_out (s : State) : (halt s).out = s.out := rfl
@[simp] theorem halt_reg (s : State) (k : Reg) : (halt s).reg k = s.reg k := rfl
@[simp] theorem halt_byteAt (s : State) (k : Nat) : (halt s).byteAt k = s.byteAt k := rfl

/-! ## emit -/

@[simp] theorem emit_x (e : OutEvent) (s : State) : (emit e s).x = s.x := rfl
@[simp] theorem emit_pc (e : OutEvent) (s : State) : (emit e s).pc = s.pc := rfl
@[simp] theorem emit_ir (e : OutEvent) (s : State) : (emit e s).ir = s.ir := rfl
@[simp] theorem emit_fl (e : OutEvent) (s : State) : (emit e s).fl = s.fl := rfl
@[simp] theorem emit_sp (e : OutEvent) (s : State) : (emit e s).sp = s.sp := rfl
@[simp] theorem emit_im (e : OutEvent) (s : State) : (emit e s).im = s.im := rfl
@[simp] theorem emit_is (e : OutEvent) (s : State) : (emit e s).is = s.is := rfl
@[simp] theorem emit_mem (e : OutEvent) (s : State) : (emit e s).mem = s.mem := rfl
@[simp] theorem emit_run (e : OutEvent) (s : State) : (emit e s).run = s.run := rfl
@[simp] theorem emit_err (e : OutEvent) (s : State) : (emit e s).err = s.err := rfl
@[simp] theorem emit_out (e : OutEvent) (s : State) : (emit e s).out = s.out ++ [e] := rfl
@[simp] theorem emit_reg (e : OutEvent) (s : State) (k : Reg) : (emit e s).reg k = s.reg k := rfl
@[simp] theorem emit_byteAt (e : OutEvent) (s : State) (k : Nat) : (emit e s).byteAt k = s.byteAt k := rfl

/-! ## takeFault -/

@[simp] theorem takeFault_x (f : Fault) (s : State) : (takeFault f s).x = s.x := rfl
@[simp] theorem takeFault_pc (f : Fault) (s : State) : (takeFault f s).pc = s.pc := rfl
@[simp] theorem takeFault_ir (f : Fault) (s : State) : (takeFault f s).ir = s.ir := rfl
@[simp] theorem takeFault_fl (f : Fault) (s : State) : (takeFault f s).fl = s.fl := rfl
@[simp] theorem takeFault_sp (f : Fault) (s : State) : (takeFault f s).sp = s.sp := rfl
@[simp] theorem takeFault_im (f : Fault) (s : State) : (takeFault f s).im = s.im := rfl
@[simp] theorem takeFault_is (f : Fault) (s : State) : (takeFault f s).is = s.is := rfl
@[simp] theorem takeFault_mem (f : Fault) (s : State) : (takeFault f s).mem = s.mem := rfl
@[simp] theorem takeFault_run (f : Fault) (s : State) : (takeFault f s).run = .halted := rfl
@[simp] theorem takeFault_err (f : Fault) (s : State) : (takeFault f s).err = some ⟨f, s.pc⟩ := rfl
@[simp] theorem takeFault_out (f : Fault) (s : State) : (takeFault f s).out = s.out := rfl
@[simp] theorem takeFault_reg (f : Fault) (s : State) (k : Reg) : (takeFault f s).reg k = s.reg k := rfl
@[simp] theorem takeFault_byteAt (f : Fault) (s : State) (k : Nat) : (takeFault f s).byteAt k = s.byteAt k := rfl

/-! ## Registers -/

@[simp] theorem reg_setReg_same (s : State) (r : Reg) (v : Byte) : (s.setReg r v).reg r = v := by
  simp [State.reg, State.setReg]

theorem reg_setReg_ne (s : State) {r k : Reg} (v : Byte) (h : k ≠ r) : (s.setReg r v).reg k = s.reg k := by
  have hv : r.val ≠ k.val := fun e => h (Fin.ext e.symm)
  simp [State.reg, State.setReg, hv]

/-- What the reset state's registers hold (R41). -/
@[simp] theorem reset_reg (r : Reg) : State.reset.reg r = 0#8 := by
  revert r; decide

end Sys2Proof.Machine
end

