-- ==== Sys2Proof/Laws/Ops.lean ====
section
/-! SUPPORT. One lemma per shared operation that says everything it can do; the provers cite these and unfold nothing. -/

namespace Sys2Proof.Machine

/-- What an outcome can be: the state a rule reached, or a fault entered from the state the rule began in. -/
theorem attempt_cases {s t : State} {r : Except Fault State} (h : attempt s r = .next t) :
    r = .ok t ∨ ∃ f, r = .error f ∧ t = takeFault f s := by
  cases r with
  | ok u => exact .inl (by simpa [attempt] using h)
  | error f => exact .inr ⟨f, rfl, by simpa [attempt] using h.symm⟩

@[simp] theorem attempt_ok (s t : State) : attempt s (.ok t) = .next t := rfl

@[simp] theorem attempt_error (s : State) (f : Fault) : attempt s (.error f) = .next (takeFault f s) := rfl

/-- A rule always has an outcome, and it is a next state. -/
theorem attempt_answers (s : State) (r : Except Fault State) : ∃ t, attempt s r = .next t := by
  cases r <;> simp

/-- The first line of a rule: either it raises, or the rule goes on with what it answers. -/
theorem bind_cases {α β : Type} {e : Except Fault α} {g : α → Except Fault β} {y : β} (h : (e >>= g) = .ok y) :
    ∃ v, e = .ok v ∧ g v = .ok y := by
  cases e with
  | ok v => exact ⟨v, rfl, h⟩
  | error f => cases h

/-- Where a rule raises: its first line raises, or what follows it does. -/
theorem bind_error_cases {α β : Type} {e : Except Fault α} {g : α → Except Fault β} {f : Fault} (h : (e >>= g) = .error f) :
    e = .error f ∨ ∃ v, e = .ok v ∧ g v = .error f := by
  cases e with
  | ok v => exact .inr ⟨v, rfl, h⟩
  | error f' => cases h; exact .inl rfl

@[simp] theorem bind_ok {α β : Type} (v : α) (g : α → Except Fault β) : ((Except.ok v : Except Fault α) >>= g) = g v := rfl

@[simp] theorem bind_error {α β : Type} (f : Fault) (g : α → Except Fault β) :
    ((Except.error f : Except Fault α) >>= g) = .error f := rfl

/-! ## Memory -/

theorem memRead_of_lt {addr : Nat} (s : State) (h : addr < 256) : memRead addr s = .ok (s.byteAt addr) := by
  simp [memRead, State.byteAt, h]

theorem memRead_of_ge {addr : Nat} (s : State) (h : 256 ≤ addr) : memRead addr s = .error (.addressOutOfRange addr) := by
  simp [memRead, Nat.not_lt.mpr h]

theorem memRead_error {addr : Nat} {s : State} {f : Fault} (h : memRead addr s = .error f) :
    256 ≤ addr ∧ f = .addressOutOfRange addr := by
  by_cases ha : addr < 256
  · rw [memRead_of_lt s ha] at h; cases h
  · rw [memRead_of_ge s (by omega)] at h; cases h; exact ⟨by omega, rfl⟩

theorem memRead_bound {addr : Nat} {s : State} {v : Byte} (h : memRead addr s = .ok v) : addr < 256 := by
  by_contra ha
  rw [memRead_of_ge s (by omega)] at h
  cases h

/-- A read addressed by a byte never faults. -/
@[simp] theorem memRead_byte (b : Byte) (s : State) : memRead b.toNat s = .ok (s.byteAt b.toNat) := memRead_of_lt s b.isLt

theorem memWrite_of_lt {addr : Nat} (v : Byte) (s : State) (h : addr < 256) :
    memWrite addr v s = .ok { s with mem := s.mem.write addr v } := by
  simp [memWrite, h]

theorem memWrite_of_ge {addr : Nat} (v : Byte) (s : State) (h : 256 ≤ addr) :
    memWrite addr v s = .error (.addressOutOfRange addr) := by
  simp [memWrite, Nat.not_lt.mpr h]

/-- A write addressed by a byte never faults. -/
@[simp] theorem memWrite_byte (b v : Byte) (s : State) :
    memWrite b.toNat v s = .ok { s with mem := s.mem.write b.toNat v } := memWrite_of_lt v s b.isLt

theorem byteAt_write_same (s : State) (addr : Nat) (v : Byte) : { s with mem := s.mem.write addr v }.byteAt addr = v :=
  s.mem.read_write_same addr v

theorem byteAt_write_ne (s : State) {addr k : Nat} (v : Byte) (h : k ≠ addr) :
    { s with mem := s.mem.write addr v }.byteAt k = s.byteAt k :=
  s.mem.read_write_ne v h

/-! ## The stack -/

theorem push_of_zero (v : Byte) {s : State} (h : s.sp = 0#8) : push v s = .error .stackFault := by
  simp [push, h]

theorem push_of_ne (v : Byte) {s : State} (h : s.sp ≠ 0#8) :
    push v s = .ok { s with sp := s.sp - 1#8, mem := s.mem.write (s.sp - 1#8).toNat v } := by
  simp only [push, h, if_false]
  exact memWrite_byte _ _ _

theorem push_cases {v : Byte} {s t : State} (h : push v s = .ok t) :
    s.sp ≠ 0#8 ∧ t = { s with sp := s.sp - 1#8, mem := s.mem.write (s.sp - 1#8).toNat v } := by
  by_cases hs : s.sp = 0#8
  · rw [push_of_zero v hs] at h; cases h
  · rw [push_of_ne v hs] at h; exact ⟨hs, by simpa using h.symm⟩

theorem push_error {v : Byte} {s : State} {f : Fault} (h : push v s = .error f) : s.sp = 0#8 ∧ f = .stackFault := by
  by_cases hs : s.sp = 0#8
  · rw [push_of_zero v hs] at h; cases h; exact ⟨hs, rfl⟩
  · rw [push_of_ne v hs] at h; cases h

theorem pop_of_top {s : State} (h : s.sp = 255#8) : pop s = .error .stackFault := by
  simp [pop, h]

theorem pop_of_ne {s : State} (h : s.sp ≠ 255#8) : pop s = .ok (s.byteAt s.sp.toNat, { s with sp := s.sp + 1#8 }) := by
  simp [pop, h]

theorem pop_cases {v : Byte} {s t : State} (h : pop s = .ok (v, t)) :
    s.sp ≠ 255#8 ∧ v = s.byteAt s.sp.toNat ∧ t = { s with sp := s.sp + 1#8 } := by
  by_cases hs : s.sp = 255#8
  · rw [pop_of_top hs] at h; cases h
  · rw [pop_of_ne hs] at h
    simp only [Except.ok.injEq, Prod.mk.injEq] at h
    exact ⟨hs, h.1.symm, h.2.symm⟩

theorem pop_error {s : State} {f : Fault} (h : pop s = .error f) : s.sp = 255#8 ∧ f = .stackFault := by
  by_cases hs : s.sp = 255#8
  · rw [pop_of_top hs] at h; cases h; exact ⟨hs, rfl⟩
  · rw [pop_of_ne hs] at h; cases h

/-- One below a stack pointer that can move down, as an address. -/
theorem sp_sub_one_toNat {sp : Byte} (h : sp ≠ 0#8) : (sp - 1#8).toNat = sp.toNat - 1 := by
  have : sp.toNat ≠ 0 := fun e => h (BitVec.eq_of_toNat_eq (by simpa using e))
  have := sp.isLt
  simp only [BitVec.toNat_sub, BitVec.toNat_ofNat]
  omega

/-- One above a stack pointer that can move up, as an address. -/
theorem sp_add_one_toNat {sp : Byte} (h : sp ≠ 255#8) : (sp + 1#8).toNat = sp.toNat + 1 := by
  have : sp.toNat ≠ 255 := fun e => h (BitVec.eq_of_toNat_eq (by simpa using e))
  have := sp.isLt
  simp only [BitVec.toNat_add, BitVec.toNat_ofNat]
  omega

/-! ## Return address and the software interrupt -/

theorem returnAddress_of_le {s : State} (h : s.pc.toNat ≤ 253) :
    returnAddress s = .ok (BitVec.ofNat 8 (s.pc.toNat + 2)) := by
  have : ¬ s.pc.toNat + 2 > 255 := by omega
  simp [returnAddress, this]

theorem returnAddress_of_gt {s : State} (h : 253 < s.pc.toNat) :
    returnAddress s = .error (.addressOutOfRange (s.pc.toNat + 2)) := by
  have : s.pc.toNat + 2 > 255 := by omega
  simp [returnAddress, this]

theorem returnAddress_cases {s : State} {r : Byte} (h : returnAddress s = .ok r) :
    s.pc.toNat ≤ 253 ∧ r = BitVec.ofNat 8 (s.pc.toNat + 2) := by
  by_cases hp : s.pc.toNat ≤ 253
  · rw [returnAddress_of_le hp] at h; exact ⟨hp, by simpa using h.symm⟩
  · rw [returnAddress_of_gt (by omega)] at h; cases h

theorem returnAddress_error {s : State} {f : Fault} (h : returnAddress s = .error f) :
    253 < s.pc.toNat ∧ f = .addressOutOfRange (s.pc.toNat + 2) := by
  by_cases hp : s.pc.toNat ≤ 253
  · rw [returnAddress_of_le hp] at h; cases h
  · rw [returnAddress_of_gt (by omega)] at h; cases h; exact ⟨by omega, rfl⟩

/-- Two below a stack pointer with room for two pushes, as an address. -/
theorem sp_sub_two_toNat {sp : Byte} (h : 2 ≤ sp.toNat) : (sp - 1#8 - 1#8).toNat = sp.toNat - 2 := by
  have := sp.isLt
  simp only [BitVec.toNat_sub, BitVec.toNat_ofNat]
  omega

/-- Two above a stack pointer with room for two pops, as an address. -/
theorem sp_add_two_toNat {sp : Byte} (h : sp.toNat ≤ 253) : (sp + 1#8 + 1#8).toNat = sp.toNat + 2 := by
  have := sp.isLt
  simp only [BitVec.toNat_add, BitVec.toNat_ofNat]
  omega

/-- The entry to the software interrupt when the return address is an address and both pushes fit. -/
theorem enterInterrupt_of_fits {s : State} (hp : s.pc.toNat ≤ 253) (hs : 2 ≤ s.sp.toNat) :
    enterInterrupt s = .ok { s with
      sp := s.sp - 1#8 - 1#8
      mem := (s.mem.write (s.sp - 1#8).toNat (BitVec.ofNat 8 (s.pc.toNat + 2))).write (s.sp - 1#8 - 1#8).toNat s.fl
      pc := Config.intVector.setWidth 9 } := by
  have h0 : s.sp ≠ 0#8 := by intro h; simp [h] at hs
  have h1 : s.sp - 1#8 ≠ 0#8 := by
    intro h
    have := congrArg BitVec.toNat h
    rw [sp_sub_one_toNat h0] at this
    simp at this; omega
  have hn : ¬ s.sp.toNat < 2 := by omega
  rw [enterInterrupt, returnAddress_of_le hp]
  simp only [bind_ok, hn, if_false, push_of_ne _ h0]
  rw [push_of_ne _ h1]
  rfl

theorem enterInterrupt_cases {s t : State} (h : enterInterrupt s = .ok t) :
    s.pc.toNat ≤ 253 ∧ 2 ≤ s.sp.toNat ∧ t = { s with
      sp := s.sp - 1#8 - 1#8
      mem := (s.mem.write (s.sp - 1#8).toNat (BitVec.ofNat 8 (s.pc.toNat + 2))).write (s.sp - 1#8 - 1#8).toNat s.fl
      pc := Config.intVector.setWidth 9 } := by
  have hfull := h
  unfold enterInterrupt at h
  obtain ⟨r, hr, h⟩ := bind_cases h
  have hp := (returnAddress_cases hr).1
  have hs : 2 ≤ s.sp.toNat := by
    by_contra hc
    have : s.sp.toNat < 2 := by omega
    simp [this] at h
  rw [enterInterrupt_of_fits hp hs] at hfull
  exact ⟨hp, hs, by simpa using hfull.symm⟩

theorem enterInterrupt_error {s : State} {f : Fault} (h : enterInterrupt s = .error f) :
    (253 < s.pc.toNat ∧ f = .addressOutOfRange (s.pc.toNat + 2)) ∨ (s.pc.toNat ≤ 253 ∧ s.sp.toNat < 2 ∧ f = .stackFault) := by
  by_cases hp : s.pc.toNat ≤ 253
  · by_cases hs : s.sp.toNat < 2
    · rw [enterInterrupt, returnAddress_of_le hp] at h
      simp only [bind_ok, hs, if_true] at h
      cases h; exact .inr ⟨hp, hs, rfl⟩
    · rw [enterInterrupt_of_fits hp (by omega)] at h; cases h
  · rw [enterInterrupt, returnAddress_of_gt (by omega)] at h
    cases h; exact .inl ⟨by omega, rfl⟩

/-- The return from the software interrupt when both pops fit. -/
theorem returnFromInterrupt_of_fits {s : State} (hs : s.sp.toNat ≤ 253) :
    returnFromInterrupt s = .ok { s with
      sp := s.sp + 1#8 + 1#8
      fl := s.byteAt s.sp.toNat &&& 0x07#8
      pc := (s.byteAt (s.sp + 1#8).toNat).setWidth 9 } := by
  have h0 : s.sp ≠ 255#8 := by intro h; simp [h] at hs
  have h1 : s.sp + 1#8 ≠ 255#8 := by
    intro h
    have := congrArg BitVec.toNat h
    rw [sp_add_one_toNat h0] at this
    simp at this; omega
  have hn : ¬ s.sp.toNat > 253 := by omega
  rw [returnFromInterrupt]
  simp only [hn, if_false, pop_of_ne h0, bind_ok]
  rw [pop_of_ne h1]
  rfl

theorem returnFromInterrupt_error {s : State} {f : Fault} (h : returnFromInterrupt s = .error f) :
    253 < s.sp.toNat ∧ f = .stackFault := by
  by_cases hs : s.sp.toNat ≤ 253
  · rw [returnFromInterrupt_of_fits hs] at h; cases h
  · have hs : s.sp.toNat > 253 := by omega
    rw [returnFromInterrupt, if_pos hs] at h
    cases h; exact ⟨hs, rfl⟩

theorem returnFromInterrupt_cases {s t : State} (h : returnFromInterrupt s = .ok t) :
    s.sp.toNat ≤ 253 ∧ t = { s with
      sp := s.sp + 1#8 + 1#8
      fl := s.byteAt s.sp.toNat &&& 0x07#8
      pc := (s.byteAt (s.sp + 1#8).toNat).setWidth 9 } := by
  have hs : s.sp.toNat ≤ 253 := by
    by_contra hc
    have : s.sp.toNat > 253 := by omega
    simp [returnFromInterrupt, this] at h
  rw [returnFromInterrupt_of_fits hs] at h
  exact ⟨hs, by simpa using h.symm⟩

end Sys2Proof.Machine
end

