-- ==== Sys2Proof/Laws/Operands.lean ====
section
/-! SUPPORT. What CheckReg can do, and the operand byte of a register. -/

namespace Sys2Proof.Machine

@[simp] theorem regByte_toNat (r : Reg) : (regByte r).toNat = r.val := by
  have := r.isLt
  simp only [regByte, BitVec.toNat_ofNat]
  omega

/-- The operand byte of a register names it. -/
@[simp] theorem checkReg_regByte (r : Reg) : checkReg (regByte r) = .ok r := by
  simp [checkReg]

theorem checkReg_of_ge {i : Byte} (h : 8 ≤ i.toNat) : checkReg i = .error (.invalidRegister i) := by
  simp [checkReg, Nat.not_lt.mpr h]

/-- An operand byte that passes the check is the operand byte of the register it names. -/
theorem checkReg_cases {i : Byte} {r : Reg} (h : checkReg i = .ok r) : i = regByte r := by
  unfold checkReg at h
  split at h
  · cases h
    exact BitVec.eq_of_toNat_eq (by simp)
  · cases h

theorem checkReg_error {i : Byte} {f : Fault} (h : checkReg i = .error f) : 8 ≤ i.toNat ∧ f = .invalidRegister i := by
  by_cases hi : i.toNat < 8
  · simp [checkReg, hi] at h
  · rw [checkReg_of_ge (by omega)] at h; cases h; exact ⟨by omega, rfl⟩

/-- An operand byte below 8 is the operand byte of a register. -/
theorem exists_regByte {i : Byte} (h : i.toNat < 8) : ∃ r : Reg, i = regByte r :=
  ⟨⟨i.toNat, h⟩, BitVec.eq_of_toNat_eq (by simp)⟩

@[simp] theorem namesRegister_regByte (r : Reg) : namesRegister (regByte r) = true := by
  simp [namesRegister]

end Sys2Proof.Machine
end

