-- ==== Sys2Proof/Laws/Exec.lean ====
section
/-! SUPPORT. What each shared shape can do, and one inversion of exec: an instruction has its own effect, or enters a fault from the
state it began in. Claims over all instructions are cases of exec_cases. -/

namespace Sys2Proof.Machine

/-! ## The shared shapes -/

@[simp] theorem aluUnary_regByte (f : Byte → Byte) (a : Reg) (s : State) :
    aluUnary f (regByte a) s = .ok (fallthrough 1 (s.setReg a (f (s.reg a)))) := by
  simp [aluUnary]

@[simp] theorem aluBinary_regByte (f : Byte → Byte → Except Fault Byte) (a b : Reg) (s : State) :
    aluBinary f (regByte a) (regByte b) s = f (s.reg a) (s.reg b) >>= fun v => .ok (fallthrough 2 (s.setReg a v)) := by
  simp [aluBinary]

@[simp] theorem branch_regByte (taken : Bool) (a : Reg) (s : State) :
    branch taken (regByte a) s = .ok (if taken then jumpTo (s.reg a) s else fallthrough 1 s) := by
  simp [branch]

theorem aluUnary_cases {f : Byte → Byte} {a : Byte} {s t : State} (h : aluUnary f a s = .ok t) :
    ∃ r, a = regByte r ∧ t = fallthrough 1 (s.setReg r (f (s.reg r))) := by
  obtain ⟨r, hr, h⟩ := bind_cases h
  exact ⟨r, checkReg_cases hr, by simpa using h.symm⟩

theorem aluBinary_cases {f : Byte → Byte → Except Fault Byte} {a b : Byte} {s t : State} (h : aluBinary f a b s = .ok t) :
    ∃ ra rb v, a = regByte ra ∧ b = regByte rb ∧ f (s.reg ra) (s.reg rb) = .ok v ∧ t = fallthrough 2 (s.setReg ra v) := by
  obtain ⟨ra, ha, h⟩ := bind_cases h
  obtain ⟨rb, hb, h⟩ := bind_cases h
  obtain ⟨v, hv, h⟩ := bind_cases h
  exact ⟨ra, rb, v, checkReg_cases ha, checkReg_cases hb, hv, by simpa using h.symm⟩

theorem aluDiv_cases {p q v : Byte} (h : aluDiv p q = .ok v) : q ≠ 0#8 ∧ v = BitVec.ofNat 8 (p.toNat / q.toNat) := by
  by_cases hq : q = 0#8
  · rw [aluDiv, if_pos hq] at h; cases h
  · rw [aluDiv, if_neg hq] at h; exact ⟨hq, by simpa using h.symm⟩

theorem aluMod_cases {p q v : Byte} (h : aluMod p q = .ok v) :
    q ≠ 0#8 ∧ v = BitVec.ofNat 8 (p.toNat - q.toNat * (p.toNat / q.toNat)) := by
  by_cases hq : q = 0#8
  · rw [aluMod, if_pos hq] at h; cases h
  · rw [aluMod, if_neg hq] at h; exact ⟨hq, by simpa using h.symm⟩

theorem branch_cases {taken : Bool} {a : Byte} {s t : State} (h : branch taken a s = .ok t) :
    ∃ r, a = regByte r ∧ t = if taken then jumpTo (s.reg r) s else fallthrough 1 s := by
  obtain ⟨r, hr, h⟩ := bind_cases h
  exact ⟨r, checkReg_cases hr, by simpa using h.symm⟩

/-! ## Where the shared shapes raise -/

theorem checkA_error {α : Type} {a : Byte} {g : Reg → Except Fault α} {f : Fault} (h : (checkReg a >>= g) = .error f) :
    (8 ≤ a.toNat ∧ f = .invalidRegister a) ∨ ∃ ra, a = regByte ra ∧ g ra = .error f := by
  rcases bind_error_cases h with h | ⟨ra, ha, h⟩
  · exact .inl (checkReg_error h)
  · exact .inr ⟨ra, checkReg_cases ha, h⟩

/-- An operand byte 8 to 255 raises before the rest of the rule. -/
theorem checkA_of_ge {α : Type} {a : Byte} (h : 8 ≤ a.toNat) (g : Reg → Except Fault α) :
    (checkReg a >>= g) = .error (.invalidRegister a) := by
  rw [checkReg_of_ge h]; rfl

theorem aluUnary_of_ge {a : Byte} (h : 8 ≤ a.toNat) (f : Byte → Byte) (s : State) :
    aluUnary f a s = .error (.invalidRegister a) := checkA_of_ge h _

theorem aluBinary_of_ge {a : Byte} (h : 8 ≤ a.toNat) (f : Byte → Byte → Except Fault Byte) (b : Byte) (s : State) :
    aluBinary f a b s = .error (.invalidRegister a) := checkA_of_ge h _

theorem branch_of_ge {a : Byte} (h : 8 ≤ a.toNat) (taken : Bool) (s : State) :
    branch taken a s = .error (.invalidRegister a) := checkA_of_ge h _

theorem aluUnary_error {fn : Byte → Byte} {a : Byte} {s : State} {f : Fault} (h : aluUnary fn a s = .error f) :
    8 ≤ a.toNat ∧ f = .invalidRegister a := by
  rcases checkA_error h with h | ⟨ra, -, h⟩
  · exact h
  · cases h

theorem aluBinary_error {fn : Byte → Byte → Except Fault Byte} {a b : Byte} {s : State} {f : Fault}
    (h : aluBinary fn a b s = .error f) :
    (8 ≤ a.toNat ∧ f = .invalidRegister a) ∨ (a.toNat < 8 ∧ 8 ≤ b.toNat ∧ f = .invalidRegister b) ∨
    ∃ ra rb, a = regByte ra ∧ b = regByte rb ∧ fn (s.reg ra) (s.reg rb) = .error f := by
  rcases checkA_error h with h1 | ⟨ra, rfl, h1⟩
  · exact .inl h1
  · rcases checkA_error h1 with h2 | ⟨rb, rfl, h2⟩
    · exact .inr (.inl ⟨by simp, h2⟩)
    · rcases bind_error_cases h2 with h3 | ⟨v, -, h3⟩
      · exact .inr (.inr ⟨ra, rb, rfl, rfl, h3⟩)
      · cases h3

theorem aluDiv_error {p q : Byte} {f : Fault} (h : aluDiv p q = .error f) : q = 0#8 ∧ f = .divisionByZero := by
  by_cases hq : q = 0#8
  · rw [aluDiv, if_pos hq] at h; cases h; exact ⟨hq, rfl⟩
  · rw [aluDiv, if_neg hq] at h; cases h

theorem aluMod_error {p q : Byte} {f : Fault} (h : aluMod p q = .error f) : q = 0#8 ∧ f = .divisionByZero := by
  by_cases hq : q = 0#8
  · rw [aluMod, if_pos hq] at h; cases h; exact ⟨hq, rfl⟩
  · rw [aluMod, if_neg hq] at h; cases h

theorem branch_error {taken : Bool} {a : Byte} {s : State} {f : Fault} (h : branch taken a s = .error f) :
    8 ≤ a.toNat ∧ f = .invalidRegister a := by
  rcases checkA_error h with h | ⟨ra, -, h⟩
  · exact h
  · cases h

/-! ## What an instruction does when it raises no fault -/

/-- The effect of an instruction that raises no fault, from its state before to its state after. -/
inductive Effect : Instr → State → State → Prop
  | nop (s) : Effect .nop s (fallthrough 0 s)
  | hlt (s) : Effect .hlt s (fallthrough 0 (halt s))
  | inc (a : Reg) (s) : Effect (.inc (regByte a)) s (fallthrough 1 (s.setReg a (s.reg a + 1#8)))
  | dec (a : Reg) (s) : Effect (.dec (regByte a)) s (fallthrough 1 (s.setReg a (s.reg a - 1#8)))
  | not (a : Reg) (s) : Effect (.not (regByte a)) s (fallthrough 1 (s.setReg a (aluNot (s.reg a))))
  | add (a b : Reg) (s) : Effect (.add (regByte a) (regByte b)) s (fallthrough 2 (s.setReg a (s.reg a + s.reg b)))
  | sub (a b : Reg) (s) : Effect (.sub (regByte a) (regByte b)) s (fallthrough 2 (s.setReg a (s.reg a - s.reg b)))
  | mul (a b : Reg) (s) : Effect (.mul (regByte a) (regByte b)) s (fallthrough 2 (s.setReg a (s.reg a * s.reg b)))
  | div (a b : Reg) (s : State) (hq : s.reg b ≠ 0#8) : Effect (.div (regByte a) (regByte b)) s
      (fallthrough 2 (s.setReg a (BitVec.ofNat 8 ((s.reg a).toNat / (s.reg b).toNat))))
  | mod (a b : Reg) (s : State) (hq : s.reg b ≠ 0#8) : Effect (.mod (regByte a) (regByte b)) s
      (fallthrough 2 (s.setReg a (BitVec.ofNat 8 ((s.reg a).toNat - (s.reg b).toNat * ((s.reg a).toNat / (s.reg b).toNat)))))
  | or (a b : Reg) (s) : Effect (.or (regByte a) (regByte b)) s (fallthrough 2 (s.setReg a (s.reg a ||| s.reg b)))
  | xor (a b : Reg) (s) : Effect (.xor (regByte a) (regByte b)) s (fallthrough 2 (s.setReg a (s.reg a ^^^ s.reg b)))
  | and (a b : Reg) (s) : Effect (.and (regByte a) (regByte b)) s (fallthrough 2 (s.setReg a (s.reg a &&& s.reg b)))
  | cmp (a b : Reg) (s : State) : Effect (.cmp (regByte a) (regByte b)) s
      (fallthrough 2 { s with fl := compareFlags (s.reg a) (s.reg b) s.fl })
  | ldi (a : Reg) (i : Byte) (s) : Effect (.ldi (regByte a) i) s (fallthrough 2 (s.setReg a i))
  | ld (a b : Reg) (s) : Effect (.ld (regByte a) (regByte b)) s
      (fallthrough 2 (s.setReg a (s.byteAt (indirectAddress b s))))
  | st (a b : Reg) (s : State) : Effect (.st (regByte a) (regByte b)) s
      (fallthrough 2 { s with mem := s.mem.write (indirectAddress a s) (s.reg b) })
  | prn (a : Reg) (s) : Effect (.prn (regByte a)) s (fallthrough 1 (emit (.num (s.reg a)) s))
  | pra (a : Reg) (s) : Effect (.pra (regByte a)) s (fallthrough 1 (emit (.chr (s.reg a)) s))
  | pop (a : Reg) (s : State) (hs : s.sp ≠ 255#8) : Effect (.pop (regByte a)) s
      (fallthrough 1 (State.setReg { s with sp := s.sp + 1#8 } a (s.byteAt s.sp.toNat)))
  | push (a : Reg) (s : State) (hs : s.sp ≠ 0#8) : Effect (.push (regByte a)) s
      (fallthrough 1 { s with sp := s.sp - 1#8, mem := s.mem.write (s.sp - 1#8).toNat (s.reg a) })
  | call (a : Reg) (s : State) (hp : s.pc.toNat ≤ 253) (hs : s.sp ≠ 0#8) : Effect (.call (regByte a)) s
      (jumpTo (s.reg a)
        { s with sp := s.sp - 1#8, mem := s.mem.write (s.sp - 1#8).toNat (BitVec.ofNat 8 (s.pc.toNat + 2)) })
  | ret (s : State) (hs : s.sp ≠ 255#8) : Effect .ret s (jumpTo (s.byteAt s.sp.toNat) { s with sp := s.sp + 1#8 })
  | jmp (a : Reg) (s) : Effect (.jmp (regByte a)) s (jumpTo (s.reg a) s)
  | jeq (a : Reg) (s) : Effect (.jeq (regByte a)) s (if s.flE then jumpTo (s.reg a) s else fallthrough 1 s)
  | jne (a : Reg) (s) : Effect (.jne (regByte a)) s (if !s.flE then jumpTo (s.reg a) s else fallthrough 1 s)
  | jlt (a : Reg) (s) : Effect (.jlt (regByte a)) s (if s.flL then jumpTo (s.reg a) s else fallthrough 1 s)
  | jgt (a : Reg) (s) : Effect (.jgt (regByte a)) s (if s.flG then jumpTo (s.reg a) s else fallthrough 1 s)
  | int (a : Reg) (s : State) (hp : s.pc.toNat ≤ 253) (hs : 2 ≤ s.sp.toNat) : Effect (.int (regByte a)) s { s with
      sp := s.sp - 1#8 - 1#8
      mem := (s.mem.write (s.sp - 1#8).toNat (BitVec.ofNat 8 (s.pc.toNat + 2))).write (s.sp - 1#8 - 1#8).toNat s.fl
      pc := Config.intVector.setWidth 9 }
  | iret (s : State) (hs : s.sp.toNat ≤ 253) : Effect .iret s { s with
      sp := s.sp + 1#8 + 1#8
      fl := s.byteAt s.sp.toNat &&& 0x07#8
      pc := (s.byteAt (s.sp + 1#8).toNat).setWidth 9 }

/-- The faults an instruction can raise, each with its cause (R201 to R205). -/
inductive Raises : Instr → State → Fault → Prop
  | invalidRegister (i : Instr) (s : State) (r : Byte) (hr : r ∈ i.registerOperands) (h8 : 8 ≤ r.toNat) :
      Raises i s (.invalidRegister r)
  | divisionByZero (i : Instr) (s : State) (a b : Reg)
      (hi : i = .div (regByte a) (regByte b) ∨ i = .mod (regByte a) (regByte b)) (hq : s.reg b = 0#8) :
      Raises i s .divisionByZero
  | returnAddress (i : Instr) (s : State) (a : Reg) (hi : i = .call (regByte a) ∨ i = .int (regByte a))
      (hp : 253 < s.pc.toNat) : Raises i s (.addressOutOfRange (s.pc.toNat + 2))
  | pushFull (i : Instr) (s : State) (a : Reg) (hi : i = .push (regByte a) ∨ i = .call (regByte a)) (hs : s.sp = 0#8) :
      Raises i s .stackFault
  | popEmpty (i : Instr) (s : State) (hi : i = .ret ∨ ∃ a : Reg, i = .pop (regByte a)) (hs : s.sp = 255#8) :
      Raises i s .stackFault
  | intFull (s : State) (a : Reg) (hs : s.sp.toNat < 2) : Raises (.int (regByte a)) s .stackFault
  | iretEmpty (s : State) (hs : 253 < s.sp.toNat) : Raises .iret s .stackFault

/-- Everything an instruction can do: its own effect, or a fault entered from the state it began in. -/
theorem exec_cases {i : Instr} {s t : State} (h : exec i s = .next t) : Effect i s t ∨ ∃ f, t = takeFault f s ∧ Raises i s f := by
  have key : ∀ {r : Except Fault State}, attempt s r = .next t → (r = .ok t → Effect i s t) →
      (∀ f, r = .error f → Raises i s f) → Effect i s t ∨ ∃ f, t = takeFault f s ∧ Raises i s f := by
    intro r hr hok herr
    rcases attempt_cases hr with hr | ⟨f, hr, hf⟩
    · exact .inl (hok hr)
    · exact .inr ⟨f, hf, herr f hr⟩
  cases i with
  | nop =>
    refine key (r := .ok (fallthrough 0 s)) h (fun e => ?_) (fun f e => ?_)
    · cases e
      exact .nop s
    · cases e
  | hlt =>
    refine key (r := .ok (fallthrough 0 (halt s))) h (fun e => ?_) (fun f e => ?_)
    · cases e
      exact .hlt s
    · cases e
  | inc a =>
    refine key h (fun e => ?_) (fun f e => ?_)
    · obtain ⟨r, rfl, rfl⟩ := aluUnary_cases e
      exact .inc r s
    · obtain ⟨h8, rfl⟩ := aluUnary_error e
      exact .invalidRegister _ s _ (by simp [Instr.registerOperands]) h8
  | dec a =>
    refine key h (fun e => ?_) (fun f e => ?_)
    · obtain ⟨r, rfl, rfl⟩ := aluUnary_cases e
      exact .dec r s
    · obtain ⟨h8, rfl⟩ := aluUnary_error e
      exact .invalidRegister _ s _ (by simp [Instr.registerOperands]) h8
  | not a =>
    refine key h (fun e => ?_) (fun f e => ?_)
    · obtain ⟨r, rfl, rfl⟩ := aluUnary_cases e
      exact .not r s
    · obtain ⟨h8, rfl⟩ := aluUnary_error e
      exact .invalidRegister _ s _ (by simp [Instr.registerOperands]) h8
  | add a b =>
    refine key h (fun e => ?_) (fun f e => ?_)
    · obtain ⟨ra, rb, v, rfl, rfl, hv, rfl⟩ := aluBinary_cases e
      cases hv
      exact .add ra rb s
    · rcases aluBinary_error e with ⟨h8, rfl⟩ | ⟨-, h8, rfl⟩ | ⟨ra, rb, rfl, rfl, e1⟩
      · exact .invalidRegister _ s _ (by simp [Instr.registerOperands]) h8
      · exact .invalidRegister _ s _ (by simp [Instr.registerOperands]) h8
      · cases e1
  | sub a b =>
    refine key h (fun e => ?_) (fun f e => ?_)
    · obtain ⟨ra, rb, v, rfl, rfl, hv, rfl⟩ := aluBinary_cases e
      cases hv
      exact .sub ra rb s
    · rcases aluBinary_error e with ⟨h8, rfl⟩ | ⟨-, h8, rfl⟩ | ⟨ra, rb, rfl, rfl, e1⟩
      · exact .invalidRegister _ s _ (by simp [Instr.registerOperands]) h8
      · exact .invalidRegister _ s _ (by simp [Instr.registerOperands]) h8
      · cases e1
  | mul a b =>
    refine key h (fun e => ?_) (fun f e => ?_)
    · obtain ⟨ra, rb, v, rfl, rfl, hv, rfl⟩ := aluBinary_cases e
      cases hv
      exact .mul ra rb s
    · rcases aluBinary_error e with ⟨h8, rfl⟩ | ⟨-, h8, rfl⟩ | ⟨ra, rb, rfl, rfl, e1⟩
      · exact .invalidRegister _ s _ (by simp [Instr.registerOperands]) h8
      · exact .invalidRegister _ s _ (by simp [Instr.registerOperands]) h8
      · cases e1
  | div a b =>
    refine key h (fun e => ?_) (fun f e => ?_)
    · obtain ⟨ra, rb, v, rfl, rfl, hv, rfl⟩ := aluBinary_cases e
      obtain ⟨hq, rfl⟩ := aluDiv_cases hv
      exact .div ra rb s hq
    · rcases aluBinary_error e with ⟨h8, rfl⟩ | ⟨-, h8, rfl⟩ | ⟨ra, rb, rfl, rfl, e1⟩
      · exact .invalidRegister _ s _ (by simp [Instr.registerOperands]) h8
      · exact .invalidRegister _ s _ (by simp [Instr.registerOperands]) h8
      · obtain ⟨hq, rfl⟩ := aluDiv_error e1
        exact .divisionByZero _ s ra rb (by simp) hq
  | mod a b =>
    refine key h (fun e => ?_) (fun f e => ?_)
    · obtain ⟨ra, rb, v, rfl, rfl, hv, rfl⟩ := aluBinary_cases e
      obtain ⟨hq, rfl⟩ := aluMod_cases hv
      exact .mod ra rb s hq
    · rcases aluBinary_error e with ⟨h8, rfl⟩ | ⟨-, h8, rfl⟩ | ⟨ra, rb, rfl, rfl, e1⟩
      · exact .invalidRegister _ s _ (by simp [Instr.registerOperands]) h8
      · exact .invalidRegister _ s _ (by simp [Instr.registerOperands]) h8
      · obtain ⟨hq, rfl⟩ := aluMod_error e1
        exact .divisionByZero _ s ra rb (by simp) hq
  | or a b =>
    refine key h (fun e => ?_) (fun f e => ?_)
    · obtain ⟨ra, rb, v, rfl, rfl, hv, rfl⟩ := aluBinary_cases e
      cases hv
      exact .or ra rb s
    · rcases aluBinary_error e with ⟨h8, rfl⟩ | ⟨-, h8, rfl⟩ | ⟨ra, rb, rfl, rfl, e1⟩
      · exact .invalidRegister _ s _ (by simp [Instr.registerOperands]) h8
      · exact .invalidRegister _ s _ (by simp [Instr.registerOperands]) h8
      · cases e1
  | xor a b =>
    refine key h (fun e => ?_) (fun f e => ?_)
    · obtain ⟨ra, rb, v, rfl, rfl, hv, rfl⟩ := aluBinary_cases e
      cases hv
      exact .xor ra rb s
    · rcases aluBinary_error e with ⟨h8, rfl⟩ | ⟨-, h8, rfl⟩ | ⟨ra, rb, rfl, rfl, e1⟩
      · exact .invalidRegister _ s _ (by simp [Instr.registerOperands]) h8
      · exact .invalidRegister _ s _ (by simp [Instr.registerOperands]) h8
      · cases e1
  | and a b =>
    refine key h (fun e => ?_) (fun f e => ?_)
    · obtain ⟨ra, rb, v, rfl, rfl, hv, rfl⟩ := aluBinary_cases e
      cases hv
      exact .and ra rb s
    · rcases aluBinary_error e with ⟨h8, rfl⟩ | ⟨-, h8, rfl⟩ | ⟨ra, rb, rfl, rfl, e1⟩
      · exact .invalidRegister _ s _ (by simp [Instr.registerOperands]) h8
      · exact .invalidRegister _ s _ (by simp [Instr.registerOperands]) h8
      · cases e1
  | cmp a b =>
    refine key h (fun e => ?_) (fun f e => ?_)
    · obtain ⟨ra, ha, e⟩ := bind_cases e
      obtain ⟨rb, hb, e⟩ := bind_cases e
      cases e
      obtain rfl := checkReg_cases ha
      obtain rfl := checkReg_cases hb
      exact .cmp ra rb s
    · rcases checkA_error e with ⟨h8, rfl⟩ | ⟨ra, rfl, e1⟩
      · exact .invalidRegister _ s _ (by simp [Instr.registerOperands]) h8
      · rcases checkA_error e1 with ⟨h8, rfl⟩ | ⟨rb, rfl, e2⟩
        · exact .invalidRegister _ s _ (by simp [Instr.registerOperands]) h8
        · cases e2
  | ldi a j =>
    refine key h (fun e => ?_) (fun f e => ?_)
    · obtain ⟨ra, ha, e⟩ := bind_cases e
      cases e
      obtain rfl := checkReg_cases ha
      exact .ldi ra j s
    · rcases checkA_error e with ⟨h8, rfl⟩ | ⟨ra, rfl, e1⟩
      · exact .invalidRegister _ s _ (by simp [Instr.registerOperands]) h8
      · cases e1
  | ld a b =>
    refine key h (fun e => ?_) (fun f e => ?_)
    · obtain ⟨ra, ha, e⟩ := bind_cases e
      obtain ⟨rb, hb, e⟩ := bind_cases e
      obtain ⟨v, hv, e⟩ := bind_cases e
      simp only [indirectAddress, memRead_byte] at hv
      cases hv; cases e
      obtain rfl := checkReg_cases ha
      obtain rfl := checkReg_cases hb
      exact .ld ra rb s
    · rcases checkA_error e with ⟨h8, rfl⟩ | ⟨ra, rfl, e1⟩
      · exact .invalidRegister _ s _ (by simp [Instr.registerOperands]) h8
      · rcases checkA_error e1 with ⟨h8, rfl⟩ | ⟨rb, rfl, e2⟩
        · exact .invalidRegister _ s _ (by simp [Instr.registerOperands]) h8
        · simp only [indirectAddress, memRead_byte] at e2; cases e2
  | st a b =>
    refine key h (fun e => ?_) (fun f e => ?_)
    · obtain ⟨ra, ha, e⟩ := bind_cases e
      obtain ⟨rb, hb, e⟩ := bind_cases e
      obtain ⟨u, hu, e⟩ := bind_cases e
      simp only [indirectAddress, memWrite_byte] at hu
      cases hu; cases e
      obtain rfl := checkReg_cases ha
      obtain rfl := checkReg_cases hb
      exact .st ra rb s
    · rcases checkA_error e with ⟨h8, rfl⟩ | ⟨ra, rfl, e1⟩
      · exact .invalidRegister _ s _ (by simp [Instr.registerOperands]) h8
      · rcases checkA_error e1 with ⟨h8, rfl⟩ | ⟨rb, rfl, e2⟩
        · exact .invalidRegister _ s _ (by simp [Instr.registerOperands]) h8
        · simp only [indirectAddress, memWrite_byte] at e2; cases e2
  | prn a =>
    refine key h (fun e => ?_) (fun f e => ?_)
    · obtain ⟨ra, ha, e⟩ := bind_cases e
      cases e
      obtain rfl := checkReg_cases ha
      exact .prn ra s
    · rcases checkA_error e with ⟨h8, rfl⟩ | ⟨ra, rfl, e1⟩
      · exact .invalidRegister _ s _ (by simp [Instr.registerOperands]) h8
      · cases e1
  | pra a =>
    refine key h (fun e => ?_) (fun f e => ?_)
    · obtain ⟨ra, ha, e⟩ := bind_cases e
      cases e
      obtain rfl := checkReg_cases ha
      exact .pra ra s
    · rcases checkA_error e with ⟨h8, rfl⟩ | ⟨ra, rfl, e1⟩
      · exact .invalidRegister _ s _ (by simp [Instr.registerOperands]) h8
      · cases e1
  | pop a =>
    refine key h (fun e => ?_) (fun f e => ?_)
    · obtain ⟨ra, ha, e⟩ := bind_cases e
      obtain ⟨⟨v, u⟩, hu, e⟩ := bind_cases e
      obtain ⟨hs, rfl, rfl⟩ := pop_cases hu
      cases e
      obtain rfl := checkReg_cases ha
      exact .pop ra s hs
    · rcases checkA_error e with ⟨h8, rfl⟩ | ⟨ra, rfl, e1⟩
      · exact .invalidRegister _ s _ (by simp [Instr.registerOperands]) h8
      · rcases bind_error_cases e1 with e2 | ⟨v, -, e2⟩
        · obtain ⟨hs, rfl⟩ := pop_error e2
          exact .popEmpty _ s (.inr ⟨ra, rfl⟩) hs
        · cases e2
  | push a =>
    refine key h (fun e => ?_) (fun f e => ?_)
    · obtain ⟨ra, ha, e⟩ := bind_cases e
      obtain ⟨u, hu, e⟩ := bind_cases e
      obtain ⟨hs, rfl⟩ := push_cases hu
      cases e
      obtain rfl := checkReg_cases ha
      exact .push ra s hs
    · rcases checkA_error e with ⟨h8, rfl⟩ | ⟨ra, rfl, e1⟩
      · exact .invalidRegister _ s _ (by simp [Instr.registerOperands]) h8
      · rcases bind_error_cases e1 with e2 | ⟨v, -, e2⟩
        · obtain ⟨hs, rfl⟩ := push_error e2
          exact .pushFull _ s ra (by simp) hs
        · cases e2
  | call a =>
    refine key h (fun e => ?_) (fun f e => ?_)
    · obtain ⟨ra, ha, e⟩ := bind_cases e
      obtain ⟨r, hr, e⟩ := bind_cases e
      obtain ⟨hp, rfl⟩ := returnAddress_cases hr
      obtain ⟨u, hu, e⟩ := bind_cases e
      obtain ⟨hs, rfl⟩ := push_cases hu
      cases e
      obtain rfl := checkReg_cases ha
      exact .call ra s hp hs
    · rcases checkA_error e with ⟨h8, rfl⟩ | ⟨ra, rfl, e1⟩
      · exact .invalidRegister _ s _ (by simp [Instr.registerOperands]) h8
      · rcases bind_error_cases e1 with e2 | ⟨r, -, e2⟩
        · obtain ⟨hp, rfl⟩ := returnAddress_error e2
          exact .returnAddress _ s ra (by simp) hp
        · rcases bind_error_cases e2 with e3 | ⟨v, -, e3⟩
          · obtain ⟨hs, rfl⟩ := push_error e3
            exact .pushFull _ s ra (by simp) hs
          · cases e3
  | ret =>
    refine key h (fun e => ?_) (fun f e => ?_)
    · obtain ⟨⟨v, u⟩, hu, e⟩ := bind_cases e
      obtain ⟨hs, rfl, rfl⟩ := pop_cases hu
      cases e; exact .ret s hs
    · rcases bind_error_cases e with e | ⟨v, -, e⟩
      · obtain ⟨hs, rfl⟩ := pop_error e
        exact .popEmpty _ s (.inl rfl) hs
      · cases e
  | jmp a =>
    refine key h (fun e => ?_) (fun f e => ?_)
    · obtain ⟨r, rfl, rfl⟩ := branch_cases e
      exact .jmp r s
    · obtain ⟨h8, rfl⟩ := branch_error e
      exact .invalidRegister _ s _ (by simp [Instr.registerOperands]) h8
  | jeq a =>
    refine key h (fun e => ?_) (fun f e => ?_)
    · obtain ⟨r, rfl, rfl⟩ := branch_cases e
      exact .jeq r s
    · obtain ⟨h8, rfl⟩ := branch_error e
      exact .invalidRegister _ s _ (by simp [Instr.registerOperands]) h8
  | jne a =>
    refine key h (fun e => ?_) (fun f e => ?_)
    · obtain ⟨r, rfl, rfl⟩ := branch_cases e
      exact .jne r s
    · obtain ⟨h8, rfl⟩ := branch_error e
      exact .invalidRegister _ s _ (by simp [Instr.registerOperands]) h8
  | jlt a =>
    refine key h (fun e => ?_) (fun f e => ?_)
    · obtain ⟨r, rfl, rfl⟩ := branch_cases e
      exact .jlt r s
    · obtain ⟨h8, rfl⟩ := branch_error e
      exact .invalidRegister _ s _ (by simp [Instr.registerOperands]) h8
  | jgt a =>
    refine key h (fun e => ?_) (fun f e => ?_)
    · obtain ⟨r, rfl, rfl⟩ := branch_cases e
      exact .jgt r s
    · obtain ⟨h8, rfl⟩ := branch_error e
      exact .invalidRegister _ s _ (by simp [Instr.registerOperands]) h8
  | int a =>
    refine key h (fun e => ?_) (fun f e => ?_)
    · obtain ⟨ra, ha, e⟩ := bind_cases e
      obtain ⟨hp, hs, rfl⟩ := enterInterrupt_cases e
      obtain rfl := checkReg_cases ha
      exact .int ra s hp hs
    · rcases checkA_error e with ⟨h8, rfl⟩ | ⟨ra, rfl, e1⟩
      · exact .invalidRegister _ s _ (by simp [Instr.registerOperands]) h8
      · rcases enterInterrupt_error e1 with ⟨hp, rfl⟩ | ⟨-, hs, rfl⟩
        · exact .returnAddress _ s ra (by simp) hp
        · exact .intFull s ra hs
  | iret =>
    refine key h (fun e => ?_) (fun f e => ?_)
    · obtain ⟨hs, rfl⟩ := returnFromInterrupt_cases e
      exact .iret s hs
    · obtain ⟨hs, rfl⟩ := returnFromInterrupt_error e
      exact .iretEmpty s hs

/-- Every instruction answers a next state in every state: none is refused and none stops the model. -/
theorem exec_answers (i : Instr) (s : State) : ∃ t, exec i s = .next t := by
  cases i with
  | nop => exact ⟨_, rfl⟩
  | hlt => exact ⟨_, rfl⟩
  | _ => exact attempt_answers s _

end Sys2Proof.Machine
end

