-- ==== Sys2Proof/Laws/PerInstr.lean ====
section
/-! SUPPORT. Facts of every instruction as syntax, one lemma per constructor: its register operands are a front part of its operand
bytes, and it has at most two operand bytes. -/

namespace Sys2Proof.Laws.OperandShape

/-- The register operands come first among the operand bytes, of which there are at most two (R70, R77). -/
def Statement (i : Instr) : Prop := i.registerOperands <+: i.operandBytes ∧ i.operandBytes.length ≤ 2

theorem nop : Statement .nop := ⟨List.prefix_rfl, by decide⟩
theorem hlt : Statement .hlt := ⟨List.prefix_rfl, by decide⟩
theorem inc (a : Byte) : Statement (.inc a) := ⟨List.prefix_rfl, Nat.le_succ 1⟩
theorem dec (a : Byte) : Statement (.dec a) := ⟨List.prefix_rfl, Nat.le_succ 1⟩
theorem add (a b : Byte) : Statement (.add a b) := ⟨List.prefix_rfl, Nat.le_refl 2⟩
theorem sub (a b : Byte) : Statement (.sub a b) := ⟨List.prefix_rfl, Nat.le_refl 2⟩
theorem mul (a b : Byte) : Statement (.mul a b) := ⟨List.prefix_rfl, Nat.le_refl 2⟩
theorem div (a b : Byte) : Statement (.div a b) := ⟨List.prefix_rfl, Nat.le_refl 2⟩
theorem mod (a b : Byte) : Statement (.mod a b) := ⟨List.prefix_rfl, Nat.le_refl 2⟩
theorem or (a b : Byte) : Statement (.or a b) := ⟨List.prefix_rfl, Nat.le_refl 2⟩
theorem xor (a b : Byte) : Statement (.xor a b) := ⟨List.prefix_rfl, Nat.le_refl 2⟩
theorem and (a b : Byte) : Statement (.and a b) := ⟨List.prefix_rfl, Nat.le_refl 2⟩
theorem not (a : Byte) : Statement (.not a) := ⟨List.prefix_rfl, Nat.le_succ 1⟩
theorem cmp (a b : Byte) : Statement (.cmp a b) := ⟨List.prefix_rfl, Nat.le_refl 2⟩
theorem ldi (a i : Byte) : Statement (.ldi a i) := ⟨⟨[i], rfl⟩, Nat.le_refl 2⟩
theorem ld (a b : Byte) : Statement (.ld a b) := ⟨List.prefix_rfl, Nat.le_refl 2⟩
theorem st (a b : Byte) : Statement (.st a b) := ⟨List.prefix_rfl, Nat.le_refl 2⟩
theorem prn (a : Byte) : Statement (.prn a) := ⟨List.prefix_rfl, Nat.le_succ 1⟩
theorem pra (a : Byte) : Statement (.pra a) := ⟨List.prefix_rfl, Nat.le_succ 1⟩
theorem pop (a : Byte) : Statement (.pop a) := ⟨List.prefix_rfl, Nat.le_succ 1⟩
theorem push (a : Byte) : Statement (.push a) := ⟨List.prefix_rfl, Nat.le_succ 1⟩
theorem call (a : Byte) : Statement (.call a) := ⟨List.prefix_rfl, Nat.le_succ 1⟩
theorem ret : Statement .ret := ⟨List.prefix_rfl, by decide⟩
theorem jmp (a : Byte) : Statement (.jmp a) := ⟨List.prefix_rfl, Nat.le_succ 1⟩
theorem jeq (a : Byte) : Statement (.jeq a) := ⟨List.prefix_rfl, Nat.le_succ 1⟩
theorem jne (a : Byte) : Statement (.jne a) := ⟨List.prefix_rfl, Nat.le_succ 1⟩
theorem jlt (a : Byte) : Statement (.jlt a) := ⟨List.prefix_rfl, Nat.le_succ 1⟩
theorem jgt (a : Byte) : Statement (.jgt a) := ⟨List.prefix_rfl, Nat.le_succ 1⟩
theorem int (a : Byte) : Statement (.int a) := ⟨List.prefix_rfl, Nat.le_succ 1⟩
theorem iret : Statement .iret := ⟨List.prefix_rfl, by decide⟩

end Sys2Proof.Laws.OperandShape
end

