-- ==== Sys2Proof/Laws/Step.lean ====
section
/-! SUPPORT. What the fetch can do, and the inversion of step. -/

namespace Sys2Proof.Machine

theorem fetch_of_lt {s : State} (h : s.pc.toNat < 256) :
    fetch s = ({ s with ir := s.byteAt s.pc.toNat },
      decodeAndFetchOperands (s.byteAt s.pc.toNat) { s with ir := s.byteAt s.pc.toNat }) := by
  rw [fetch, memRead_of_lt s h]

theorem fetch_of_ge {s : State} (h : 256 ≤ s.pc.toNat) : fetch s = (s, .error (.addressOutOfRange s.pc.toNat)) := by
  rw [fetch, memRead_of_ge s h]

theorem step_of_halted {s : State} (h : s.run = .halted) : step s = .next s := by
  rw [step, h]; rfl

theorem step_of_fetch_error {s t : State} {f : Fault} (h : s.run = .running) (hf : fetch s = (t, .error f)) :
    step s = .next (takeFault f t) := by
  rw [step, h]; simp [hf]

theorem step_of_fetch_ok {s t : State} {i : Instr} (h : s.run = .running) (hf : fetch s = (t, .ok i)) :
    step s = exec i t := by
  rw [step, h]; simp [hf]

/-- A run of one more tick, where that tick answers a next state. -/
theorem run_succ {s t : State} (n : Nat) (h : step s = .next t) :
    Host.Core.run Sys2Proof.core (n + 1) s = Host.Core.run Sys2Proof.core n t := by
  have hs : Sys2Proof.core.step s = .next t := h
  simp only [Host.Core.run, hs]

/-- Everything a tick can do: nothing in HALTED; the opcode fetch's fault; a fault of decode or operand fetch; or an instruction. -/
theorem step_cases {s t : State} (h : step s = .next t) :
    (s.run = .halted ∧ t = s) ∨
    (s.run = .running ∧ 256 ≤ s.pc.toNat ∧ t = takeFault (.addressOutOfRange s.pc.toNat) s) ∨
    (s.run = .running ∧ s.pc.toNat < 256 ∧
      ((∃ f, decodeAndFetchOperands (s.byteAt s.pc.toNat) { s with ir := s.byteAt s.pc.toNat } = .error f ∧
          t = takeFault f { s with ir := s.byteAt s.pc.toNat }) ∨
        ∃ i, decodeAndFetchOperands (s.byteAt s.pc.toNat) { s with ir := s.byteAt s.pc.toNat } = .ok i ∧
          exec i { s with ir := s.byteAt s.pc.toNat } = .next t)) := by
  have hrun : s.run = .halted ∨ s.run = .running := by cases s.run <;> simp
  rcases hrun with hr | hr
  · rw [step_of_halted hr] at h; exact .inl ⟨hr, by simpa using h.symm⟩
  · by_cases hp : s.pc.toNat < 256
    · refine .inr (.inr ⟨hr, hp, ?_⟩)
      have hf := fetch_of_lt hp
      generalize decodeAndFetchOperands (s.byteAt s.pc.toNat) { s with ir := s.byteAt s.pc.toNat } = e at hf ⊢
      cases e with
      | error f => rw [step_of_fetch_error hr hf] at h; exact .inl ⟨f, rfl, by simpa using h.symm⟩
      | ok i => rw [step_of_fetch_ok hr hf] at h; exact .inr ⟨i, rfl, h⟩
    · have hp : 256 ≤ s.pc.toNat := by omega
      rw [step_of_fetch_error hr (fetch_of_ge hp)] at h
      exact .inr (.inl ⟨hr, hp, by simpa using h.symm⟩)

/-- The instruction a fetch gives starts with the opcode fetched. -/
theorem opcode_of_fetched {op : Byte} {s : State} {i : Instr} (h : decodeAndFetchOperands op s = .ok i) : i.opcode = op := by
  unfold decodeAndFetchOperands at h
  split at h
  · cases h
  · rename_i hd hh
    have k := handler_builds hh
    cases hd with
    | f0 j => cases h; exact (List.cons.inj k).1
    | f1 mk => obtain ⟨a, -, h⟩ := bind_cases h; cases h; exact (List.cons.inj (k a)).1
    | f2 mk =>
      obtain ⟨a, -, h⟩ := bind_cases h
      obtain ⟨b, -, h⟩ := bind_cases h
      cases h; exact (List.cons.inj (k a b)).1

/-- A fault of decode or operand fetch: the opcode has no handler, or an operand byte lies past the last address. -/
theorem decodeAndFetch_error {op : Byte} {s : State} {f : Fault} (h : decodeAndFetchOperands op s = .error f) :
    (handler op = none ∧ f = .unknownOpcode op) ∨
    ∃ k, (k = 1 ∨ k = 2) ∧ 256 ≤ s.pc.toNat + k ∧ f = .addressOutOfRange (s.pc.toNat + k) := by
  unfold decodeAndFetchOperands at h
  split at h
  · rename_i hn; cases h; exact .inl ⟨hn, rfl⟩
  · refine .inr ?_
    rename_i hd hh
    cases hd with
    | f0 j => cases h
    | f1 mk =>
      rcases bind_error_cases h with h | ⟨a, -, h⟩
      · exact ⟨1, .inl rfl, memRead_error h⟩
      · cases h
    | f2 mk =>
      rcases bind_error_cases h with h | ⟨a, -, h⟩
      · exact ⟨1, .inl rfl, memRead_error h⟩
      · rcases bind_error_cases h with h | ⟨b, -, h⟩
        · exact ⟨2, .inr rfl, memRead_error h⟩
        · cases h

/-- A fetch that gives an instruction found all its bytes: the instruction fits in memory from pc on. -/
theorem length_of_fetched {op : Byte} {s : State} {i : Instr} (hp : s.pc.toNat < 256)
    (h : decodeAndFetchOperands op s = .ok i) : s.pc.toNat + i.length ≤ 256 := by
  unfold decodeAndFetchOperands at h
  split at h
  · cases h
  · rename_i hd hh
    have k := handler_builds hh
    cases hd with
    | f0 j => cases h; simp only [Instr.length, k, List.length_cons, List.length_nil]; omega
    | f1 mk =>
      obtain ⟨a, ha, h⟩ := bind_cases h
      have := memRead_bound ha
      cases h; simp only [Instr.length, k a, List.length_cons, List.length_nil]; omega
    | f2 mk =>
      obtain ⟨a, -, h⟩ := bind_cases h
      obtain ⟨b, hb, h⟩ := bind_cases h
      have := memRead_bound hb
      cases h; simp only [Instr.length, k a b, List.length_cons, List.length_nil]; omega

end Sys2Proof.Machine
end

