-- ==== Sys2Proof/Tests/Slice0.lean ====
section
/-! SUPPORT. Tests of one step against the spec's own vectors (95_test_vectors.md, named W, E, A, L, O, S, B, I, X), the words of
every constructor written out from R78, the well-formedness checks, and a witness of the hypotheses of every statement. -/

namespace Sys2Proof.Tests
open Sys2Proof Sys2Proof.Machine

/-- The start state of a vector: reset, with these bytes placed at this pc (95_test_vectors.md, conventions). -/
def start (pc : Nat) (bytes : List Byte) : State :=
  { State.reset with pc := BitVec.ofNat 9 pc, mem := Memory.place [] pc bytes }

/-- One more memory byte in a start state. -/
def poke (a : Nat) (v : Byte) (s : State) : State := { s with mem := s.mem.write a v }

/-- The state an outcome goes on with; the second argument where it does not. -/
def reached (o : Host.Outcome State Fault Refusal) (s : State) : State :=
  match o with
  | .next t => t
  | .fault _ => s
  | .refused _ => s

/-- One tick. -/
def tick (s : State) : State := reached (step s) s

/-- The fault record of a failed end. -/
def failed (f : Fault) (pc : Nat) : Option FaultRecord := some ⟨f, BitVec.ofNat 9 pc⟩

/-! ## Well-formedness: an ill-formed term for each check -/

theorem test_wf_refuses_operandA : (Instr.inc 8#8).wf = false ∧ (Instr.ldi 255#8 0#8).wf = false := by decide
theorem test_wf_refuses_operandA_of_two : (Instr.add 8#8 0#8).wf = false := by decide
theorem test_wf_refuses_operandB : (Instr.add 7#8 8#8).wf = false ∧ (Instr.st 0#8 255#8).wf = false := by decide
theorem test_wf_accepts : (Instr.add 7#8 0#8).wf = true ∧ (Instr.ldi 7#8 255#8).wf = true ∧ Instr.iret.wf = true := by decide

/-! ## Decoding: a word of every constructor, bit by bit from R78 -/

theorem test_decode_engine :
    decode [0b00000000#8] = .ok (.nop, []) ∧ decode [0b00000001#8, 0b00000111#8] = .ok (.hlt, [7#8]) := by decide
theorem test_decode_alu_unary :
    decode [0b01111000#8, 0b00000011#8] = .ok (.inc 3#8, []) ∧ decode [0b01111001#8, 0b00000000#8] = .ok (.dec 0#8, []) ∧
    decode [0b01110000#8, 0b00000101#8] = .ok (.not 5#8, []) := by decide
theorem test_decode_alu_arithmetic :
    decode [0b10101000#8, 0b00000000#8, 0b00000001#8] = .ok (.add 0#8 1#8, []) ∧
    decode [0b10101001#8, 0b00000010#8, 0b00000100#8] = .ok (.sub 2#8 4#8, []) ∧
    decode [0b10101010#8, 0b00000101#8, 0b00000110#8] = .ok (.mul 5#8 6#8, []) ∧
    decode [0b10101011#8, 0b00000111#8, 0b00000000#8] = .ok (.div 7#8 0#8, []) ∧
    decode [0b10101100#8, 0b00001001#8, 0b00000001#8] = .ok (.mod 9#8 1#8, []) := by decide
theorem test_decode_alu_logic :
    decode [0b10110001#8, 0b00000000#8, 0b00000001#8] = .ok (.or 0#8 1#8, []) ∧
    decode [0b10110010#8, 0b00000010#8, 0b00000011#8] = .ok (.xor 2#8 3#8, []) ∧
    decode [0b10110011#8, 0b00000100#8, 0b00000101#8] = .ok (.and 4#8 5#8, []) ∧
    decode [0b10100000#8, 0b00000110#8, 0b00000111#8] = .ok (.cmp 6#8 7#8, []) := by decide
theorem test_decode_load_store :
    decode [0b10011001#8, 0b00000000#8, 0b00001000#8] = .ok (.ldi 0#8 8#8, []) ∧
    decode [0b10011000#8, 0b00000001#8, 0b00000010#8] = .ok (.ld 1#8 2#8, []) ∧
    decode [0b10011010#8, 0b00000011#8, 0b00000100#8] = .ok (.st 3#8 4#8, []) := by decide
theorem test_decode_output :
    decode [0b01000011#8, 0b00000000#8] = .ok (.prn 0#8, []) ∧ decode [0b01000010#8, 0b11111111#8] = .ok (.pra 255#8, []) := by
  decide
theorem test_decode_stack :
    decode [0b01001100#8, 0b00000010#8] = .ok (.pop 2#8, []) ∧ decode [0b01001101#8, 0b00000001#8] = .ok (.push 1#8, []) ∧
    decode [0b01001000#8, 0b00000011#8] = .ok (.call 3#8, []) ∧ decode [0b00001001#8] = .ok (.ret, []) := by decide
theorem test_decode_branch :
    decode [0b01010000#8, 0b00000011#8] = .ok (.jmp 3#8, []) ∧ decode [0b01010001#8, 0b00000010#8] = .ok (.jeq 2#8, []) ∧
    decode [0b01010010#8, 0b00000001#8] = .ok (.jne 1#8, []) ∧ decode [0b01010011#8, 0b00000100#8] = .ok (.jlt 4#8, []) ∧
    decode [0b01010100#8, 0b00000101#8] = .ok (.jgt 5#8, []) := by decide
theorem test_decode_interrupt :
    decode [0b01001010#8, 0b00000010#8] = .ok (.int 2#8, []) ∧ decode [0b00001011#8] = .ok (.iret, []) := by decide
theorem test_decode_rejects :
    decode [0x02#8] = .error (.unknownOpcode 0x02#8) ∧ decode [0xC0#8, 0#8] = .error (.unknownOpcode 0xC0#8) ∧
    decode [0xA8#8, 0#8] = .error (.missingByte 2) ∧ decode [0x78#8] = .error (.missingByte 1) ∧
    decode [] = .error (.missingByte 0) := by decide
theorem test_decodeTableWord_orders_bytes :
    decodeTableWord 24 0x0100A8 = some (.add 0#8 1#8) ∧ decodeTableWord 8 0x0B = some .iret ∧
    decodeTableWord 8 0x0709A8 = some (.add 0#8 0#8) ∧ decodeTableWord 8 0xFF = none := by decide

/-! ## Engine (vectors E) -/

theorem test_nop_at_top : (tick (start 0xFF [0x00#8])).pc = 256#9 ∧ (tick (start 0xFF [0x00#8])).run = .running := by decide
theorem test_fetch_past_memory :
    (tick (start 0x100 [])).err = failed (.addressOutOfRange 256) 256 ∧ (tick (start 0x100 [])).pc = 256#9 := by decide
theorem test_hlt : (tick (start 0x10 [0x01#8])).run = .halted ∧ (tick (start 0x10 [0x01#8])).pc = 0x11#9 ∧
    (tick (start 0x10 [0x01#8])).err = none ∧ (tick (start 0x10 [0x01#8])).ir = 0x01#8 := by decide
theorem test_last_instruction_that_fits :
    (tick (((start 0xFD [0xA8#8, 0#8, 1#8]).setReg 0 1#8).setReg 1 2#8)).reg 0 = 3#8 ∧
    (tick (start 0xFD [0xA8#8, 0#8, 1#8])).pc = 256#9 := by decide

/-! ## ALU (vectors A) -/

theorem test_inc_wraps : (tick ((start 0 [0x78#8, 0#8]).setReg 0 0xFF#8)).reg 0 = 0x00#8 := by decide
theorem test_dec_wraps : (tick (start 0 [0x79#8, 0#8])).reg 0 = 0xFF#8 := by decide
theorem test_add_wraps : (tick (((start 0 [0xA8#8, 0#8, 1#8]).setReg 0 0xFF#8).setReg 1 1#8)).reg 0 = 0x00#8 := by decide
theorem test_add_same_register : (tick ((start 0 [0xA8#8, 2#8, 2#8]).setReg 2 0x90#8)).reg 2 = 0x20#8 := by decide
theorem test_sub_borrows : (tick (((start 0 [0xA9#8, 0#8, 1#8]).setReg 0 3#8).setReg 1 5#8)).reg 0 = 0xFE#8 := by decide
theorem test_mul_keeps_low_byte :
    (tick (((start 0 [0xAA#8, 0#8, 1#8]).setReg 0 0xFF#8).setReg 1 0xFF#8)).reg 0 = 0x01#8 := by decide
theorem test_div_floors : (tick (((start 0 [0xAB#8, 0#8, 1#8]).setReg 0 200#8).setReg 1 7#8)).reg 0 = 28#8 := by decide
theorem test_div_by_zero : (tick ((start 0 [0xAB#8, 0#8, 1#8]).setReg 0 9#8)).err = failed .divisionByZero 0 ∧
    (tick ((start 0 [0xAB#8, 0#8, 1#8]).setReg 0 9#8)).reg 0 = 9#8 ∧
    (tick ((start 0 [0xAB#8, 0#8, 1#8]).setReg 0 9#8)).ir = 0xAB#8 := by decide
theorem test_mod : (tick (((start 0 [0xAC#8, 0#8, 1#8]).setReg 0 200#8).setReg 1 7#8)).reg 0 = 4#8 := by decide
theorem test_or : (tick (((start 0 [0xB1#8, 0#8, 1#8]).setReg 0 0x81#8).setReg 1 0x18#8)).reg 0 = 0x99#8 := by decide
theorem test_xor : (tick (((start 0 [0xB2#8, 0#8, 1#8]).setReg 0 0xFF#8).setReg 1 0x0F#8)).reg 0 = 0xF0#8 := by decide
theorem test_and : (tick (((start 0 [0xB3#8, 0#8, 1#8]).setReg 0 0xF0#8).setReg 1 0x3C#8)).reg 0 = 0x30#8 := by decide
theorem test_not : (tick ((start 0 [0x70#8, 0#8]).setReg 0 0xA5#8)).reg 0 = 0x5A#8 := by decide
theorem test_cmp_unsigned : (tick (((start 0 [0xA0#8, 0#8, 1#8]).setReg 0 200#8).setReg 1 5#8)).fl = 0x02#8 := by decide
theorem test_cmp_clears_old_flags :
    (tick ({ ((start 0 [0xA0#8, 0#8, 1#8]).setReg 0 5#8).setReg 1 200#8 with fl := 0x01#8 })).fl = 0x04#8 ∧
    (tick ({ (start 0 [0xA0#8, 6#8, 6#8]).setReg 6 0x80#8 with fl := 0x06#8 })).fl = 0x01#8 := by decide

/-! ## Load and store (vectors L) -/

theorem test_ldi : (tick (start 0 [0x99#8, 7#8, 0xFF#8])).reg 7 = 0xFF#8 ∧ (tick (start 0 [0x99#8, 7#8, 0xFF#8])).pc = 3#9 := by decide
theorem test_ld_same_register : (tick (start 0 [0x98#8, 2#8, 2#8])).reg 2 = 0x98#8 := by decide
theorem test_ld_top_address :
    (tick (poke 0xFF 0x77#8 ((start 0 [0x98#8, 0#8, 1#8]).setReg 1 0xFF#8))).reg 0 = 0x77#8 := by decide
theorem test_st_over_itself :
    (tick (((start 0 [0x9A#8, 0#8, 1#8]).setReg 0 1#8).setReg 1 7#8)).byteAt 1 = 7#8 ∧
    (tick (((start 0 [0x9A#8, 0#8, 1#8]).setReg 0 1#8).setReg 1 7#8)).pc = 3#9 := by decide
theorem test_st_bad_register : (tick (start 0 [0x9A#8, 8#8, 0#8])).err = failed (.invalidRegister 8#8) 0 := by decide

/-! ## Output (vectors O) -/

theorem test_prn : (tick ((start 0 [0x43#8, 0#8]).setReg 0 17#8)).out = [.num 17#8] ∧
    (OutEvent.num 17#8).consoleText = ['1', '7'] ∧ (OutEvent.num 255#8).consoleText = ['2', '5', '5'] := by decide
theorem test_prn_bad_register : (tick (start 0 [0x43#8, 8#8])).out = [] ∧
    (tick (start 0 [0x43#8, 8#8])).err = failed (.invalidRegister 8#8) 0 := by decide
theorem test_pra : (tick ((start 0 [0x42#8, 0#8]).setReg 0 0x41#8)).out = [.chr 65#8] ∧
    (OutEvent.chr 65#8).consoleText = ['A'] := by decide

/-! ## Stack and call (vectors S) -/

theorem test_push_at_sp_one : (tick ({ (start 0 [0x4D#8, 0#8]).setReg 0 0x5A#8 with sp := 1#8 })).byteAt 0 = 0x5A#8 ∧
    (tick ({ (start 0 [0x4D#8, 0#8]).setReg 0 0x5A#8 with sp := 1#8 })).sp = 0#8 := by decide
theorem test_push_full : (tick ({ start 0 [0x4D#8, 0#8] with sp := 0#8 })).err = failed .stackFault 0 ∧
    (tick ({ start 0 [0x4D#8, 9#8] with sp := 0#8 })).err = failed (.invalidRegister 9#8) 0 := by decide
theorem test_pop_nothing_pushed : (tick (poke 0xF4 0x33#8 (start 0 [0x4C#8, 1#8]))).reg 1 = 0x33#8 ∧
    (tick (poke 0xF4 0x33#8 (start 0 [0x4C#8, 1#8]))).sp = 0xF5#8 := by decide
theorem test_pop_at_top : (tick ({ start 0 [0x4C#8, 0#8] with sp := 0xFF#8 })).err = failed .stackFault 0 ∧
    (tick (poke 0xFE 9#8 { start 0 [0x4C#8, 0#8] with sp := 0xFE#8 })).reg 0 = 9#8 := by decide
theorem test_call : (tick ((start 6 [0x48#8, 1#8]).setReg 1 0x10#8)).pc = 0x10#9 ∧
    (tick ((start 6 [0x48#8, 1#8]).setReg 1 0x10#8)).byteAt 0xF3 = 0x08#8 ∧
    (tick ((start 6 [0x48#8, 1#8]).setReg 1 0x10#8)).sp = 0xF3#8 := by decide
theorem test_call_return_address_past_memory :
    (tick ({ start 0xFE [0x48#8, 0#8] with sp := 0#8 })).err = failed (.addressOutOfRange 256) 254 ∧
    (tick (start 0xFD [0x48#8, 0#8])).byteAt 0xF3 = 0xFF#8 := by decide
theorem test_ret : (tick (poke 0xF3 0x08#8 { start 0x17 [0x09#8] with sp := 0xF3#8 })).pc = 0x08#9 ∧
    (tick (poke 0xF3 0x08#8 { start 0x17 [0x09#8] with sp := 0xF3#8 })).sp = 0xF4#8 := by decide
theorem test_ret_at_top : (tick ({ start 0x20 [0x09#8] with sp := 0xFF#8 })).err = failed .stackFault 0x20 := by decide

/-! ## Branches (vectors B): bytes op 02 at 0x20, x[2] = 0x60 -/

/-- Where a branch with these flags goes. -/
def branchTo (op fl : Byte) : PcWord := (tick { (start 0x20 [op, 2#8]).setReg 2 0x60#8 with fl := fl }).pc

theorem test_jmp : branchTo 0x50#8 0#8 = 0x60#9 ∧ branchTo 0x50#8 7#8 = 0x60#9 := by decide
theorem test_jeq : [0#8, 1#8, 2#8, 4#8].map (branchTo 0x51#8) = [0x22#9, 0x60#9, 0x22#9, 0x22#9] := by decide
theorem test_jne : [0#8, 1#8, 2#8, 4#8].map (branchTo 0x52#8) = [0x60#9, 0x22#9, 0x60#9, 0x60#9] := by decide
theorem test_jlt : [0#8, 1#8, 2#8, 4#8].map (branchTo 0x53#8) = [0x22#9, 0x22#9, 0x22#9, 0x60#9] := by decide
theorem test_jgt : [0#8, 1#8, 2#8, 4#8].map (branchTo 0x54#8) = [0x22#9, 0x22#9, 0x60#9, 0x22#9] := by decide
theorem test_untaken_jump_checks_register :
    (tick (start 0x20 [0x51#8, 8#8])).err = failed (.invalidRegister 8#8) 0x20 := by decide

/-! ## Software interrupt (vectors I) -/

theorem test_int_pushes : (tick ({ start 0x10 [0x4A#8, 0#8] with fl := 0x02#8 })).byteAt 0xF3 = 0x12#8 ∧
    (tick ({ start 0x10 [0x4A#8, 0#8] with fl := 0x02#8 })).byteAt 0xF2 = 0x02#8 ∧
    (tick ({ start 0x10 [0x4A#8, 0#8] with fl := 0x02#8 })).sp = 0xF2#8 := by decide
theorem test_int_no_partial_push : (tick ({ start 0x10 [0x4A#8, 0#8] with sp := 1#8 })).err = failed .stackFault 0x10 ∧
    (tick ({ start 0x10 [0x4A#8, 0#8] with sp := 1#8 })).byteAt 0 = 0#8 := by decide
theorem test_iret_masks_flags :
    (tick (poke 0xFE 0x77#8 (poke 0xFD 0xFF#8 { start 0x40 [0x0B#8] with sp := 0xFD#8 }))).fl = 0x07#8 ∧
    (tick (poke 0xFE 0x77#8 (poke 0xFD 0xFF#8 { start 0x40 [0x0B#8] with sp := 0xFD#8 }))).pc = 0x77#9 := by decide
theorem test_iret_no_partial_pop : (tick ({ start 0x40 [0x0B#8] with sp := 0xFE#8 })).err = failed .stackFault 0x40 := by decide

/-! ## Fault priority (vectors X), fault numbers (R206) -/

theorem test_unknown_beats_operand_fetch : (tick (start 0xFF [0xFF#8])).err = failed (.unknownOpcode 0xFF#8) 255 ∧
    (tick (start 0xFF [0xFF#8])).ir = 0xFF#8 := by decide
theorem test_operand_fetch_faults : (tick (start 0xFF [0x78#8])).err = failed (.addressOutOfRange 256) 255 ∧
    (tick (start 0xFE [0x99#8, 9#8])).err = failed (.addressOutOfRange 256) 254 ∧
    (tick (start 0xFF [0xA8#8])).err = failed (.addressOutOfRange 256) 255 := by decide
theorem test_register_beats_division : (tick (start 0 [0xAB#8, 9#8, 1#8])).err = failed (.invalidRegister 9#8) 0 ∧
    (tick (start 0 [0xAB#8, 0#8, 9#8])).err = failed (.invalidRegister 9#8) 0 ∧
    (tick (start 0 [0xA8#8, 8#8, 9#8])).err = failed (.invalidRegister 8#8) 0 := by decide
theorem test_register_beats_return_address :
    (tick (start 0xFE [0x48#8, 8#8])).err = failed (.invalidRegister 8#8) 254 := by decide
theorem test_fault_codes : (Fault.addressOutOfRange 256).code = 0 ∧ Fault.stackFault.code = 4 ∧
    (Fault.unknownOpcode 0xFF#8).info = some 255 ∧ Fault.divisionByZero.info = none := by decide
theorem test_loader_bad_address : (launch [(0, 0x01#8), (256, 0x01#8), (1, 0x01#8)]).err = failed (.addressOutOfRange 256) 0 ∧
    (launch [(0, 0x01#8), (256, 0x01#8), (1, 0x01#8)]).byteAt 0 = 0x01#8 ∧
    (launch [(0, 0x01#8), (256, 0x01#8), (1, 0x01#8)]).byteAt 1 = 0x00#8 := by decide
theorem test_memory_canonical : Memory.write [(1, 5#8), (3, 6#8)] 2 7#8 = [(1, 5#8), (2, 7#8), (3, 6#8)] ∧
    Memory.write [(1, 5#8), (3, 6#8)] 3 0#8 = [(1, 5#8)] := by decide
theorem test_fetch_word_after_reset : (tick (State.reset.withFetchWord 8 0x78)).reg 0 = 1#8 ∧
    (tick (State.reset.withFetchWord 24 0x2A0399)).reg 3 = 0x2A#8 := by decide

/-! ## Witnesses: a concrete state and operands that meet the hypotheses of each statement, each clause at a boundary -/

theorem witness_OpcodeMapIsTheThirtyRows : 0x02#8 ∉ opcodeBytes ∧ 0xFF#8 ∉ opcodeBytes ∧ 0x0A#8 ∉ opcodeBytes := by decide
theorem witness_UnknownOpcodeHaltsTheMachine :
    let s := start 255 [0xFF#8]
    s.run = .running ∧ s.pc.toNat ≤ 255 ∧ s.byteAt s.pc.toNat ∉ opcodeBytes ∧ s.err = none ∧
    ∃ t, step s = .next t ∧ t.err = some ⟨.unknownOpcode 0xFF#8, 255#9⟩ :=
  ⟨by decide, by decide, by decide, by decide, _, rfl, by decide⟩
theorem witness_EncodeOfDecodeIsTheBytes : decode [0xA8#8, 8#8, 255#8, 1#8] = .ok (.add 8#8 255#8, [1#8]) := by decide
theorem witness_TopTwoBitsGiveTheLength :
    (∃ h, handler 0xB3#8 = some h) ∧ (∃ h, handler 0x00#8 = some h) ∧ 0xC0 ≤ (0xC0#8 : Byte).toNat ∧ (0xC0#8 : Byte).toNat / 64 = 3 :=
  ⟨⟨_, rfl⟩, ⟨_, rfl⟩, by decide, by decide⟩
theorem witness_IllFormedInstructionRaisesInvalidRegister :
    (Instr.add 7#8 8#8).registerOperands.find? (fun b => decide (8 ≤ b.toNat)) = some 8#8 ∧
    (Instr.jeq 255#8).registerOperands.find? (fun b => decide (8 ≤ b.toNat)) = some 255#8 ∧
    ∃ t, exec (.jeq 8#8) State.reset = .next t ∧ t.err = some ⟨.invalidRegister 8#8, 0#9⟩ :=
  ⟨by decide, by decide, _, rfl, by decide⟩
theorem witness_ChecksOperands : 8 ≤ (8#8 : Byte).toNat ∧ 8 ≤ (255#8 : Byte).toNat ∧ (7#8 : Byte).toNat < 8 := by decide
theorem witness_StepRunsDecodedInstruction :
    (start 253 [0xA8#8, 0#8, 1#8]).run = .running ∧
    decode (start 253 [0xA8#8, 0#8, 1#8]).bytesFromPc = .ok (.add 0#8 1#8, []) ∧
    decode (start 255 [0x0B#8]).bytesFromPc = .ok (.iret, []) := by decide
theorem witness_StepRunsPlacedWord :
    (start 253 []).run = .running ∧ (start 253 []).pc.toNat ≤ 253 ∧ decodeTableWord 24 0x0100A8 = some (.add 0#8 1#8) := by decide
theorem witness_HaltedTicksChangeNothing : (halt State.reset).run = .halted := by decide
theorem witness_OpcodeFetchPastMemoryFaults : (start 256 []).run = .running ∧ (start 256 []).pc = 256#9 := by decide
theorem witness_OperandFetchPastMemoryFaults :
    (∃ h, handler ((start 255 [0x78#8]).byteAt 255) = some h ∧ 1 ≤ h.operandCount) ∧
    (∃ h, handler ((start 254 [0xA8#8]).byteAt 254) = some h ∧ h.operandCount = 2) ∧
    (start 255 [0x78#8]).pc = 255#9 ∧ (start 254 [0xA8#8]).pc = 254#9 ∧ (start 254 [0xA8#8]).run = .running :=
  ⟨⟨_, rfl, by decide⟩, ⟨_, rfl, by decide⟩, by decide, by decide, by decide⟩
theorem witness_FaultIsPrecise :
    (∃ t, step (start 256 []) = .next t ∧ t.err = some ⟨.addressOutOfRange 256, 256#9⟩) ∧
    (∃ t, step (start 0 [0xAB#8, 0#8, 1#8]) = .next t ∧ t.err = some ⟨.divisionByZero, 0#9⟩) ∧
    (start 256 []).run = .running ∧ (start 256 []).err = none ∧
    (start 0 [0xAB#8, 0#8, 1#8]).run = .running ∧ (start 0 [0xAB#8, 0#8, 1#8]).err = none :=
  ⟨⟨_, rfl, by decide⟩, ⟨_, rfl, by decide⟩, by decide, by decide, by decide, by decide⟩
theorem witness_OnlyHltEndsWithoutFault :
    (start 255 [0x01#8]).run = .running ∧ (start 255 [0x01#8]).err = none ∧ ∃ t, step (start 255 [0x01#8]) = .next t ∧ t.normalEnd :=
  ⟨by decide, by decide, _, rfl, by decide⟩
theorem witness_StepKeepsStateLegal :
    (start 255 [0x00#8]).Inv ∧ ∃ t, step (start 255 [0x00#8]) = .next t ∧ t.pc.toNat = Config.pcMax :=
  ⟨by decide, _, rfl, by decide⟩
theorem witness_EveryRunStaysLegal :
    ∃ t, Host.Core.run Sys2Proof.core 2 (launch [(0, 0x42#8), (1, 0x07#8), (2, 0x01#8)]) = .next t ∧ t.normalEnd :=
  ⟨_, rfl, by decide⟩
theorem witness_InterruptRegistersAreInert : ∃ t, step (start 0 [0x4D#8, 0#8]) = .next t := ⟨_, rfl⟩
theorem witness_FlagsWrittenByCmpAndIretOnly : ∃ t, exec (.cmp 0#8 1#8) State.reset = .next t ∧ t.fl ≠ State.reset.fl :=
  ⟨_, rfl, by decide⟩
theorem witness_MemoryWrittenByStoresAndPushesOnly :
    (∃ t, exec (.st 0#8 1#8) ((State.reset.setReg 0 255#8).setReg 1 1#8) = .next t ∧ t.byteAt 255 ≠ 0#8) ∧
    (∃ t, exec (.push 1#8) { State.reset.setReg 1 1#8 with sp := 1#8 } = .next t ∧ t.byteAt 0 ≠ 0#8) ∧
    (∃ t, exec (.int 1#8) { State.reset with sp := 2#8, fl := 1#8 } = .next t ∧ t.byteAt 0 ≠ 0#8 ∧ t.byteAt 1 ≠ 0#8) :=
  ⟨⟨_, rfl, by decide⟩, ⟨_, rfl, by decide⟩, ⟨_, rfl, by decide, by decide⟩⟩
theorem witness_RegistersWrittenThroughOperandAOnly :
    ∃ t, exec (.ldi 7#8 1#8) State.reset = .next t ∧ t.reg 7 ≠ State.reset.reg 7 := ⟨_, rfl, by decide⟩
theorem witness_StackPointerMovesByPushesAndPopsOnly :
    (∃ t, exec (.push 0#8) { State.reset with sp := 1#8 } = .next t ∧ t.sp = 0#8) ∧
    (∃ t, exec (.int 0#8) { State.reset with sp := 2#8 } = .next t ∧ t.sp = 0#8) ∧
    (∃ t, exec .ret { State.reset with sp := 254#8 } = .next t ∧ t.sp = 255#8) ∧
    (∃ t, exec .iret { State.reset with sp := 253#8 } = .next t ∧ t.sp = 255#8) :=
  ⟨⟨_, rfl, by decide⟩, ⟨_, rfl, by decide⟩, ⟨_, rfl, by decide⟩, ⟨_, rfl, by decide⟩⟩
theorem witness_OutputGrowsByPrintsOnly_prn : ∃ t, exec (.prn (regByte 7)) State.reset = .next t ∧ t.out = [.num 0#8] :=
  ⟨_, rfl, by decide⟩
theorem witness_OutputGrowsByPrintsOnly_pra : ∃ t, exec (.pra (regByte 7)) State.reset = .next t ∧ t.out = [.chr 0#8] :=
  ⟨_, rfl, by decide⟩
theorem witness_OutputGrowsByPrintsOnly_other :
    (∀ a : Reg, Instr.prn 8#8 ≠ .prn (regByte a) ∧ Instr.prn 8#8 ≠ .pra (regByte a)) ∧
    ∃ t, exec (.prn 8#8) State.reset = .next t ∧ t.out = [] :=
  ⟨by decide, _, rfl, by decide⟩
theorem witness_PcAdvancesByLength :
    Instr.setsPc (.ldi 0#8 1#8) = false ∧ (start 253 []).err = none ∧ (start 253 []).pc.toNat + Instr.length (.ldi 0#8 1#8) ≤ 256 ∧
    ∃ t, exec (.ldi 0#8 1#8) (start 253 []) = .next t ∧ t.err = none :=
  ⟨by decide, by decide, by decide, _, rfl, by decide⟩
theorem witness_LoaderWritesInOrder :
    (∀ c ∈ [(255, 1#8), (0, 2#8), ((255 : Nat), (3#8 : Byte))], c.1 < 256) ∧
    (launch [(255, 1#8), (0, 2#8), (255, 3#8)]).byteAt 255 = 3#8 := by decide
theorem witness_LoaderBadAddressHalts : (∀ c ∈ [((255 : Nat), (1#8 : Byte))], c.1 < 256) ∧ 256 ≤ 256 := by decide
theorem witness_NopAdvancesOnly :
    (start 255 [0x00#8]).run = .running ∧ (start 255 [0x00#8]).pc.toNat ≤ 255 ∧ (start 255 [0x00#8]).byteAt 255 = 0x00#8 := by decide
theorem witness_HltHaltsPastItself :
    (start 255 [0x01#8]).run = .running ∧ (start 255 [0x01#8]).pc.toNat ≤ 255 ∧ (start 255 [0x01#8]).byteAt 255 = 0x01#8 := by decide
theorem witness_DivModGiveQuotientAndRemainder :
    (State.reset.setReg 1 1#8).reg 1 ≠ 0#8 ∧ State.reset.reg 1 = 0#8 := by decide
theorem witness_CmpWritesTheThreeFlags : ({ State.reset with fl := 7#8 }).fl &&& 0xF8#8 = 0#8 := by decide
theorem witness_stack_bounds :
    ({ State.reset with sp := 1#8 }).sp ≠ 0#8 ∧ ({ State.reset with sp := 0#8 }).sp = 0#8 ∧
    ({ State.reset with sp := 254#8 }).sp ≠ 255#8 ∧ ({ State.reset with sp := 255#8 }).sp = 255#8 := by decide
theorem witness_CallPushesTheReturnAddress :
    ((start 253 []).pc.toNat ≤ 253 ∧ ({ start 253 [] with sp := 1#8 }).sp ≠ 0#8) ∧ 254 ≤ (start 254 []).pc.toNat ∧
    ({ start 253 [] with sp := 0#8 }).pc.toNat ≤ 253 ∧ ({ start 253 [] with sp := 0#8 }).sp = 0#8 := by decide
theorem witness_IntEntersTheHandler :
    ((start 253 []).pc.toNat ≤ 253 ∧ 2 ≤ ({ start 253 [] with sp := 2#8 }).sp.toNat) ∧ 254 ≤ (start 254 []).pc.toNat ∧
    ({ start 253 [] with sp := 1#8 }).pc.toNat ≤ 253 ∧ ({ start 253 [] with sp := 1#8 }).sp.toNat < 2 := by decide
theorem witness_IretReturnsFromTheHandler :
    ({ State.reset with sp := 253#8 }).sp.toNat ≤ 253 ∧ 254 ≤ ({ State.reset with sp := 254#8 }).sp.toNat := by decide
theorem witness_PushThenPopMovesTheValue :
    ({ State.reset with sp := 1#8 }).sp ≠ 0#8 ∧ ∃ t, exec (.push (regByte 7)) { State.reset with sp := 1#8 } = .next t :=
  ⟨by decide, _, rfl⟩
theorem witness_CallThenRetReturns :
    let s := { start 253 [] with sp := 1#8 }
    s.pc.toNat ≤ 253 ∧ s.sp ≠ 0#8 ∧ ∃ t u : State, exec (.call (regByte 0)) s = .next t ∧ u.sp = t.sp ∧
      u.byteAt u.sp.toNat = t.byteAt t.sp.toNat ∧ u.reg 0 ≠ t.reg 0 :=
  ⟨by decide, by decide, reached (exec (.call (regByte 0)) { start 253 [] with sp := 1#8 }) State.reset,
    (reached (exec (.call (regByte 0)) { start 253 [] with sp := 1#8 }) State.reset).setReg 0 5#8, rfl, rfl, rfl, by decide⟩
theorem witness_IntThenIretRestores :
    let s := { start 253 [] with sp := 2#8, fl := 7#8 }
    s.pc.toNat ≤ 253 ∧ 2 ≤ s.sp.toNat ∧ s.fl &&& 0xF8#8 = 0#8 ∧ ∃ t u : State, exec (.int (regByte 0)) s = .next t ∧ u.sp = t.sp ∧
      u.byteAt u.sp.toNat = t.byteAt t.sp.toNat ∧ u.byteAt (u.sp.toNat + 1) = t.byteAt (t.sp.toNat + 1) ∧ u.fl ≠ t.fl :=
  ⟨by decide, by decide, by decide, reached (exec (.int (regByte 0)) { start 253 [] with sp := 2#8, fl := 7#8 }) State.reset,
    { reached (exec (.int (regByte 0)) { start 253 [] with sp := 2#8, fl := 7#8 }) State.reset with fl := 1#8 },
    rfl, rfl, rfl, rfl, by decide⟩
theorem witness_StoredByteIsFetchedNext :
    let s := (start 0 []).setReg 0 3#8
    s.run = .running ∧ ∃ t, exec (.st (regByte 0) (regByte 1)) s = .next t ∧ t.pc.toNat = indirectAddress 0 s :=
  ⟨by decide, _, rfl, by decide⟩

end Sys2Proof.Tests
end

/-! What an instruction can do to each field of the state, one lemma per field: the cases of Effect read field by field.
The proofs of the state family, and any later claim about a field, cite these instead of splitting Effect again. -/

namespace Sys2Proof.Machine

/-- An instruction that changes something every fault keeps raised no fault: it had its own effect. -/
theorem effect_of_changed {β : Type} (g : State → β) {i : Instr} {s t : State} (hg : ∀ f, g (takeFault f s) = g s)
    (h : exec i s = .next t) (hne : g t ≠ g s) : Effect i s t := by
  rcases exec_cases h with e | ⟨f, rfl, -⟩
  · exact e
  · exact absurd (hg f) hne

/-! ## Fault record, pc and memory -/

/-- An instruction that raises no fault leaves the fault record alone. -/
theorem effect_err {i : Instr} {s t : State} (e : Effect i s t) : t.err = s.err := by
  cases e with
  | jeq | jne | jlt | jgt => split <;> rfl
  | _ => rfl

/-- pc moves on by the instruction's length, or an instruction that sets it puts a byte there (R96, R180). -/
theorem effect_pc {i : Instr} {s t : State} (e : Effect i s t) :
    t.pc = s.pc + BitVec.ofNat 9 i.length ∨ (i.setsPc = true ∧ ∃ b : Byte, t.pc = b.setWidth 9) := by
  cases e with
  | jeq | jne | jlt | jgt =>
    split
    · exact .inr ⟨rfl, _, rfl⟩
    · exact .inl rfl
  | call | ret | jmp | int | iret => exact .inr ⟨rfl, _, rfl⟩
  | _ => exact .inl rfl

/-- pc stays within 0 to 256 after an instruction that fits in memory (R25). -/
theorem effect_pc_le {i : Instr} {s t : State} (e : Effect i s t) (hfit : s.pc.toNat + i.length ≤ 256) :
    t.pc.toNat ≤ 256 := by
  rcases effect_pc e with h | ⟨-, b, h⟩
  · rw [h, BitVec.toNat_add, BitVec.toNat_ofNat]; omega
  · rw [h, BitVec.toNat_setWidth]; have := b.isLt; omega

/-- An instruction keeps memory in its canonical form: every address it writes is a byte. -/
theorem effect_mem_wf {i : Instr} {s t : State} (e : Effect i s t) (hm : s.mem.wf) : t.mem.wf := by
  cases e with
  | st a b => exact Memory.wf_write hm (s.reg a).isLt _
  | push | call => exact Memory.wf_write hm (s.sp - 1#8).isLt _
  | int => exact Memory.wf_write (Memory.wf_write hm (s.sp - 1#8).isLt _) (s.sp - 1#8 - 1#8).isLt _
  | jeq | jne | jlt | jgt => split <;> exact hm
  | _ => exact hm

/-! ## Flags -/

/-- What an instruction does to the flags: nothing, a comparison, or the three bits IRET pops (R30, R192). -/
theorem effect_fl {i : Instr} {s t : State} (e : Effect i s t) :
    t.fl = s.fl ∨
    (∃ a b : Reg, i = .cmp (regByte a) (regByte b) ∧ t.fl = compareFlags (s.reg a) (s.reg b) s.fl) ∨
    (i = .iret ∧ t.fl = s.byteAt s.sp.toNat &&& 0x07#8) := by
  cases e with
  | cmp a b => exact .inr (.inl ⟨a, b, rfl, rfl⟩)
  | iret => exact .inr (.inr ⟨rfl, rfl⟩)
  | jeq | jne | jlt | jgt => split <;> exact .inl rfl
  | _ => exact .inl rfl

/-- A comparison keeps fl[7:3]. -/
theorem compareFlags_high (p q fl : Byte) : compareFlags p q fl &&& 0xF8#8 = fl &&& 0xF8#8 := by
  refine BitVec.eq_of_getLsbD_eq fun k hk => ?_
  rw [BitVec.getLsbD_and, BitVec.getLsbD_and, compareFlags_bit]
  interval_cases k <;> simp

/-- No instruction sets a bit of fl[7:3] (R29). -/
theorem effect_fl_high {i : Instr} {s t : State} (e : Effect i s t) (hf : s.fl &&& 0xF8#8 = 0#8) :
    t.fl &&& 0xF8#8 = 0#8 := by
  rcases effect_fl e with h | ⟨a, b, -, h⟩ | ⟨-, h⟩
  · rw [h, hf]
  · rw [h, compareFlags_high, hf]
  · rw [h, BitVec.and_assoc]; simp

/-! ## Stack pointer -/

/-- A push moves SP down by exactly one. -/
theorem sp_sub_one_succ {sp : Byte} (h : sp ≠ 0#8) : (sp - 1#8).toNat + 1 = sp.toNat := by
  have : sp.toNat ≠ 0 := fun e => h (BitVec.eq_of_toNat_eq e)
  rw [sp_sub_one_toNat h]
  omega

/-- INT's two pushes move SP down by exactly two. -/
theorem sp_sub_two_add_two {sp : Byte} (h : 2 ≤ sp.toNat) : (sp - 1#8 - 1#8).toNat + 2 = sp.toNat := by
  rw [sp_sub_two_toNat h]
  omega

/-- What an instruction does to SP, as exact numbers: nothing, one or two pushes, one or two pops (R32). -/
theorem effect_sp {i : Instr} {s t : State} (e : Effect i s t) :
    t.sp = s.sp ∨
    (t.sp.toNat + 1 = s.sp.toNat ∧ ∃ a, i = .push a ∨ i = .call a) ∨
    (t.sp.toNat + 2 = s.sp.toNat ∧ ∃ a, i = .int a) ∨
    (t.sp.toNat = s.sp.toNat + 1 ∧ (i = .ret ∨ ∃ a, i = .pop a)) ∨
    (t.sp.toNat = s.sp.toNat + 2 ∧ i = .iret) := by
  cases e with
  | push a s hs => exact .inr (.inl ⟨sp_sub_one_succ hs, _, .inl rfl⟩)
  | call a s hp hs => exact .inr (.inl ⟨sp_sub_one_succ hs, _, .inr rfl⟩)
  | int a s hp hs => exact .inr (.inr (.inl ⟨sp_sub_two_add_two hs, _, rfl⟩))
  | ret s hs => exact .inr (.inr (.inr (.inl ⟨sp_add_one_toNat hs, .inl rfl⟩)))
  | pop a s hs => exact .inr (.inr (.inr (.inl ⟨sp_add_one_toNat hs, .inr ⟨_, rfl⟩⟩)))
  | iret s hs => exact .inr (.inr (.inr (.inr ⟨sp_add_two_toNat hs, rfl⟩)))
  | jeq | jne | jlt | jgt => split <;> exact .inl rfl
  | _ => exact .inl rfl

/-! ## General registers -/

/-- The operand byte of the general register an instruction writes, where it writes one (R22). -/
def destination : Instr → Option Byte
  | .inc a | .dec a | .not a | .pop a => some a
  | .add a _ | .sub a _ | .mul a _ | .div a _ | .mod a _ => some a
  | .or a _ | .xor a _ | .and a _ | .ldi a _ | .ld a _ => some a
  | _ => none

/-- Every register but the destination keeps its value. -/
theorem effect_reg {i : Instr} {s t : State} {r : Reg} (e : Effect i s t) (hr : destination i ≠ some (regByte r)) :
    t.reg r = s.reg r := by
  have kept {a : Reg} (u : State) (v : Byte) (ha : some (regByte a) ≠ some (regByte r)) :
      (u.setReg a v).reg r = u.reg r := reg_setReg_ne u v (fun h => ha (h ▸ rfl))
  cases e with
  | inc | dec | not | add | sub | mul | div | mod | or | xor | and | ldi | ld | pop => exact kept _ _ hr
  | jeq | jne | jlt | jgt => split <;> rfl
  | _ => rfl

/-- The destination is operand A, and the instructions that have one are the fourteen that write a register (R22). -/
theorem destination_cases {i : Instr} {d : Byte} (h : destination i = some d) :
    i.operandBytes.head? = some d ∧
    ∃ a b, i = .inc a ∨ i = .dec a ∨ i = .add a b ∨ i = .sub a b ∨ i = .mul a b ∨ i = .div a b ∨ i = .mod a b ∨
      i = .or a b ∨ i = .xor a b ∨ i = .and a b ∨ i = .not a ∨ i = .ldi a b ∨ i = .ld a b ∨ i = .pop a := by
  cases i with
  | inc a | dec a | not a | pop a => exact ⟨h, a, 0#8, by simp⟩
  | add a b | sub a b | mul a b | div a b | mod a b | or a b | xor a b | and a b | ldi a b | ld a b =>
    exact ⟨h, a, b, by simp⟩
  | _ => cases h

/-! ## Output -/

theorem exec_prn (a : Reg) (s : State) : exec (.prn (regByte a)) s = .next (fallthrough 1 (emit (.num (s.reg a)) s)) := by
  simp [exec, execPrn]

theorem exec_pra (a : Reg) (s : State) : exec (.pra (regByte a)) s = .next (fallthrough 1 (emit (.chr (s.reg a)) s)) := by
  simp [exec, execPra]

/-- An instruction that prints no register leaves the output alone. -/
theorem effect_out {i : Instr} {s t : State} (e : Effect i s t)
    (hi : ∀ a : Reg, i ≠ .prn (regByte a) ∧ i ≠ .pra (regByte a)) : t.out = s.out := by
  cases e with
  | prn a => exact absurd rfl (hi a).1
  | pra a => exact absurd rfl (hi a).2
  | jeq | jne | jlt | jgt => split <;> rfl
  | _ => rfl

end Sys2Proof.Machine

/-! IM and IS are read by no rule: with other values in them a rule does the same. Each lemma says that a rule run on a
state with other values there is the rule's own result with those values, so the lemmas compose along the lines of a rule. -/

namespace Sys2Proof.Machine

/-- The state with other values in IM and IS (R33). -/
def setInterrupts (v w : Byte) (s : State) : State := { s with im := v, is := w }

variable {v w : Byte} {s t : State}

/-- A line that does not touch IM and IS, then the rest of a rule. -/
theorem bind_inert {α : Type} {e : Except Fault α} {g g' : α → Except Fault State}
    (hg : ∀ x, g' x = (g x).map (setInterrupts v w)) : (e >>= g') = (e >>= g).map (setInterrupts v w) := by
  cases e with
  | ok x => exact hg x
  | error f => rfl

/-- A line that goes on with a state, or with a value and a state, then the rest of a rule: τ puts the other values in. -/
theorem bind_map_inert {α : Type} {τ : α → α} {e e' : Except Fault α} {g g' : α → Except Fault State} (he : e' = e.map τ)
    (hg : ∀ x, g' (τ x) = (g x).map (setInterrupts v w)) : (e' >>= g') = (e >>= g).map (setInterrupts v w) := by
  subst he
  cases e with
  | ok x => exact hg x
  | error f => rfl

/-! ## The shared operations -/

theorem memWrite_inert (addr : Nat) (b : Byte) (s : State) :
    memWrite addr b (setInterrupts v w s) = (memWrite addr b s).map (setInterrupts v w) := by
  unfold memWrite
  split <;> rfl

theorem push_inert (b : Byte) (s : State) : push b (setInterrupts v w s) = (push b s).map (setInterrupts v w) := by
  by_cases hs : s.sp = 0#8
  · rw [push_of_zero b hs, push_of_zero b (s := setInterrupts v w s) hs]; rfl
  · rw [push_of_ne b hs, push_of_ne b (s := setInterrupts v w s) hs]; rfl

theorem pop_inert (s : State) : pop (setInterrupts v w s) = (pop s).map (Prod.map id (setInterrupts v w)) := by
  by_cases hs : s.sp = 255#8
  · rw [pop_of_top hs, pop_of_top (s := setInterrupts v w s) hs]; rfl
  · rw [pop_of_ne hs, pop_of_ne (s := setInterrupts v w s) hs]; rfl

theorem enterInterrupt_inert (s : State) :
    enterInterrupt (setInterrupts v w s) = (enterInterrupt s).map (setInterrupts v w) := by
  refine bind_inert (e := returnAddress s) fun ret => ?_
  by_cases hs : s.sp.toNat < 2
  · rw [if_pos hs]; exact if_pos hs
  · rw [if_neg hs]
    refine (if_neg hs).trans (bind_map_inert (push_inert ret s) fun s1 => ?_)
    exact bind_map_inert (push_inert s.fl s1) fun s2 => rfl

theorem returnFromInterrupt_inert (s : State) :
    returnFromInterrupt (setInterrupts v w s) = (returnFromInterrupt s).map (setInterrupts v w) := by
  unfold returnFromInterrupt
  by_cases hs : s.sp.toNat > 253
  · rw [if_pos hs]; exact if_pos hs
  · rw [if_neg hs]
    refine (if_neg hs).trans (bind_map_inert (pop_inert s) fun p => ?_)
    exact bind_map_inert (pop_inert p.2) fun q => rfl

/-! ## The shapes instructions share -/

theorem aluUnary_inert (f : Byte → Byte) (a : Byte) (s : State) :
    aluUnary f a (setInterrupts v w s) = (aluUnary f a s).map (setInterrupts v w) :=
  bind_inert fun _ => rfl

theorem aluBinary_inert (f : Byte → Byte → Except Fault Byte) (a b : Byte) (s : State) :
    aluBinary f a b (setInterrupts v w s) = (aluBinary f a b s).map (setInterrupts v w) :=
  bind_inert fun ra => bind_inert fun rb => bind_inert (e := f (s.reg ra) (s.reg rb)) fun _ => rfl

theorem branch_inert (taken : Bool) (a : Byte) (s : State) :
    branch taken a (setInterrupts v w s) = (branch taken a s).map (setInterrupts v w) :=
  bind_inert fun _ => by cases taken <;> rfl

/-! ## Instructions and the tick -/

/-- A rule that ignores IM and IS answers the same with other values there, a fault among the answers. -/
theorem attempt_inert {r r' : Except Fault State} (hr : r' = r.map (setInterrupts v w)) (h : attempt s r = .next t) :
    attempt (setInterrupts v w s) r' = .next (setInterrupts v w t) := by
  subst hr
  rcases attempt_cases h with rfl | ⟨f, rfl, rfl⟩ <;> rfl

/-- Every instruction does the same with other values in IM and IS. -/
theorem exec_inert {i : Instr} (h : exec i s = .next t) :
    exec i (setInterrupts v w s) = .next (setInterrupts v w t) := by
  cases i with
  | nop => exact attempt_inert (s := s) (r := .ok (fallthrough 0 s)) rfl h
  | hlt => exact attempt_inert (s := s) (r := .ok (fallthrough 0 (halt s))) rfl h
  | inc | dec | not => exact attempt_inert (aluUnary_inert _ _ s) h
  | add | sub | mul | div | mod | or | xor | and => exact attempt_inert (aluBinary_inert _ _ _ s) h
  | cmp => exact attempt_inert (bind_inert fun _ => bind_inert fun _ => rfl) h
  | ldi | prn | pra => exact attempt_inert (bind_inert fun _ => rfl) h
  | ld => exact attempt_inert (bind_inert fun _ => bind_inert fun rb =>
      bind_inert (e := memRead (indirectAddress rb s) s) fun _ => rfl) h
  | st => exact attempt_inert (bind_inert fun ra => bind_inert fun rb =>
      bind_map_inert (memWrite_inert (indirectAddress ra s) (s.reg rb) s) fun _ => rfl) h
  | push => exact attempt_inert (bind_inert fun ra => bind_map_inert (push_inert (s.reg ra) s) fun _ => rfl) h
  | pop => exact attempt_inert (bind_inert fun _ => bind_map_inert (pop_inert s) fun _ => rfl) h
  | call => exact attempt_inert (bind_inert fun _ => bind_inert (e := returnAddress s) fun ret =>
      bind_map_inert (push_inert ret s) fun _ => rfl) h
  | ret => exact attempt_inert (bind_map_inert (pop_inert s) fun _ => rfl) h
  | jmp | jeq | jne | jlt | jgt => exact attempt_inert (branch_inert _ _ s) h
  | int => exact attempt_inert (bind_inert fun _ => enterInterrupt_inert s) h
  | iret => exact attempt_inert (returnFromInterrupt_inert s) h

/-- The fetch of a tick reads pc and memory only: the opcode goes to ir, and the rest of its answer is the same. -/
theorem fetch_inert (hp : s.pc.toNat < 256) {e : Except Fault Instr}
    (he : decodeAndFetchOperands (s.byteAt s.pc.toNat) { s with ir := s.byteAt s.pc.toNat } = e) :
    fetch (setInterrupts v w s) = (setInterrupts v w { s with ir := s.byteAt s.pc.toNat }, e) := by
  subst he
  exact fetch_of_lt (s := setInterrupts v w s) hp

/-- Every tick does the same with other values in IM and IS. -/
theorem step_inert (h : step s = .next t) : step (setInterrupts v w s) = .next (setInterrupts v w t) := by
  rcases step_cases h with ⟨hr, rfl⟩ | ⟨hr, hp, rfl⟩ | ⟨hr, hp, ⟨f, hf, rfl⟩ | ⟨i, hi, he⟩⟩
  · exact step_of_halted (s := setInterrupts v w t) hr
  · exact step_of_fetch_error (s := setInterrupts v w s) hr (fetch_of_ge hp)
  · exact step_of_fetch_error (s := setInterrupts v w s) hr (fetch_inert hp hf)
  · exact (step_of_fetch_ok (s := setInterrupts v w s) hr (fetch_inert hp hi)).trans (exec_inert he)

/-- What does the same whatever IM and IS hold keeps them: put back the values they have, and the answer holds those. -/
theorem interrupts_kept {g : State → Host.Outcome State Fault Refusal} (h : g s = .next t)
    (hg : ∀ v w, g (setInterrupts v w s) = .next (setInterrupts v w t)) : t.im = s.im ∧ t.is = s.is := by
  have ht : t = setInterrupts s.im s.is t := Host.Outcome.next.inj (h.symm.trans (hg s.im s.is))
  exact ⟨(congrArg State.im ht :), (congrArg State.is ht :)⟩

end Sys2Proof.Machine

/-! Every instruction that fits in memory, and every tick, keeps the invariant. -/

namespace Sys2Proof.Machine

/-- Entering a fault keeps a state legal: the record it writes names the state's own pc (R208). -/
theorem inv_takeFault {s : State} (h : s.Inv) (f : Fault) : (takeFault f s).Inv := by
  obtain ⟨hpc, hfl, hmem, hint, -⟩ := h
  exact ⟨hpc, hfl, hmem, hint, fun r hr => ⟨rfl, by rw [← Option.mem_some_iff.mp hr]; rfl⟩⟩

/-- A legal state in RUNNING holds no fault record (R38). -/
theorem err_of_running {s : State} (h : s.Inv) (hr : s.run = .running) : s.err = none := by
  obtain ⟨-, -, -, -, herr⟩ := h
  refine Option.eq_none_iff_forall_not_mem.mpr fun r hmem => ?_
  obtain ⟨hrun, -⟩ := herr r hmem
  rw [hr] at hrun
  cases hrun

/-- An instruction that fits in memory keeps a legal state without a fault record legal. -/
theorem inv_exec {i : Instr} {s t : State} (hs : s.Inv) (herr : s.err = none) (hfit : s.pc.toNat + i.length ≤ 256)
    (h : exec i s = .next t) : t.Inv := by
  rcases exec_cases h with e | ⟨f, rfl, -⟩
  · obtain ⟨-, hfl, hmem, ⟨him, his⟩, -⟩ := hs
    obtain ⟨kim, kis⟩ := interrupts_kept h fun _ _ => exec_inert h
    have ht : t.err = none := (effect_err e).trans herr
    exact ⟨effect_pc_le e hfit, effect_fl_high e hfl, effect_mem_wf e hmem, ⟨kim.trans him, kis.trans his⟩, by simp [ht]⟩
  · exact inv_takeFault hs f

/-- A tick keeps a legal state legal. -/
theorem inv_step {s t : State} (hs : s.Inv) (h : step s = .next t) : t.Inv := by
  have hir (op : Byte) : State.Inv { s with ir := op } := hs
  rcases step_cases h with ⟨-, rfl⟩ | ⟨-, -, rfl⟩ | ⟨hr, hp, ⟨f, -, rfl⟩ | ⟨i, hi, he⟩⟩
  · exact hs
  · exact inv_takeFault hs _
  · exact inv_takeFault (hir _) f
  · exact inv_exec (hir (s.byteAt s.pc.toNat)) (err_of_running hs hr) (length_of_fetched hp hi) he

end Sys2Proof.Machine

/-! The statements of 10_state.md, each settled from the lemmas above. -/

namespace Sys2Proof.Machine

/-- Settles O16: halted ticks change nothing, fault entry keeps the invariant, and so does an instruction the fetch found whole. -/
theorem stepKeepsStateLegal : Obligations.StepKeepsStateLegal := fun _ _ => inv_step

/-- Settles O17. -/
theorem resetStateIsLegal : Obligations.ResetStateIsLegal :=
  ⟨by decide, by decide, Memory.wf_nil, ⟨rfl, rfl⟩, by simp [State.reset]⟩

/-- Settles O20: the tick ignores what IM and IS hold, and so keeps them. -/
theorem interruptRegistersAreInert : Obligations.InterruptRegistersAreInert := by
  intro s t v w h
  obtain ⟨him, his⟩ := interrupts_kept h fun _ _ => step_inert h
  exact ⟨him, his, step_inert h⟩

/-- Settles O21: a fault keeps the flags, and only CMP and IRET have an effect on them. -/
theorem flagsWrittenByCmpAndIretOnly : Obligations.FlagsWrittenByCmpAndIretOnly := by
  intro i s t h hne
  rcases effect_fl (effect_of_changed State.fl (takeFault_fl · s) h hne) with hfl | ⟨a, b, hi, -⟩ | ⟨hi, -⟩
  · exact absurd hfl hne
  · exact .inr ⟨_, _, hi⟩
  · exact .inl hi

/-- Settles O23: a changed register is the instruction's destination. -/
theorem registersWrittenThroughOperandAOnly : Obligations.RegistersWrittenThroughOperandAOnly := by
  intro i s t r h hne
  have e := effect_of_changed (State.reg · r) (takeFault_reg · s r) h hne
  exact destination_cases (by_contra fun hd => hne (effect_reg e hd))

/-- Settles O24: a fault keeps SP, and every move an instruction makes is one of the four listed. -/
theorem stackPointerMovesByPushesAndPopsOnly : Obligations.StackPointerMovesByPushesAndPopsOnly := by
  intro i s t h hne
  exact (effect_sp (effect_of_changed State.sp (takeFault_sp · s) h hne)).resolve_left hne

/-- Settles O25: the two prints by their own rule; any other instruction that changed the output would have had an effect on it. -/
theorem outputGrowsByPrintsOnly : Obligations.OutputGrowsByPrintsOnly := by
  intro i s t h
  refine ⟨?_, ?_, fun hi => ?_⟩
  · rintro a rfl
    rw [exec_prn] at h; cases h; rfl
  · rintro a rfl
    rw [exec_pra] at h; cases h; rfl
  · by_contra hne
    exact hne (effect_out (effect_of_changed State.out (takeFault_out · s) h hne) hi)

/-- Settles O27. -/
theorem resetStateValues : Obligations.ResetStateValues :=
  ⟨rfl, rfl, Memory.read_nil, reset_reg, rfl, rfl, rfl, rfl, rfl, rfl, rfl⟩

end Sys2Proof.Machine

/-! Memory and ir, instruction by instruction and tick by tick: which byte an effect can change, and what a fetch leaves in ir. -/

namespace Sys2Proof.Machine

/-! ## The bytes an instruction writes -/

/-- The only address at which a write can change what is read is its own. -/
theorem Memory.eq_of_read_write_ne {m : Memory} {a k : Nat} {v : Byte} (h : (m.write a v).read k ≠ m.read k) : k = a :=
  by_contra fun hk => h (m.read_write_ne v hk)

/-- A byte an instruction changes is the one an ST addresses, or one of the cells PUSH, CALL or INT pushes (R51). -/
theorem effect_changed_byte {i : Instr} {s t : State} {addr : Nat} (e : Effect i s t) (h : t.byteAt addr ≠ s.byteAt addr) :
    (∃ a b : Reg, i = .st (regByte a) (regByte b) ∧ addr = indirectAddress a s) ∨
    (∃ a, (i = .push a ∨ i = .call a ∨ i = .int a) ∧ addr + 1 = s.sp.toNat) ∨
    (∃ a, i = .int a ∧ addr + 2 = s.sp.toNat) := by
  have pushed (hs : s.sp ≠ 0#8) (v : Byte) (hw : (s.mem.write (s.sp - 1#8).toNat v).read addr ≠ s.mem.read addr) :
      addr + 1 = s.sp.toNat := Memory.eq_of_read_write_ne hw ▸ sp_sub_one_succ hs
  cases e with
  | st a b => exact .inl ⟨a, b, rfl, Memory.eq_of_read_write_ne h⟩
  | push a s hs => exact .inr (.inl ⟨_, .inl rfl, pushed hs _ h⟩)
  | call a s hp hs => exact .inr (.inl ⟨_, .inr (.inl rfl), pushed hs _ h⟩)
  | int a s hp hs =>
    by_cases hk : addr = (s.sp - 1#8 - 1#8).toNat
    · exact .inr (.inr ⟨_, rfl, hk ▸ sp_sub_two_add_two hs⟩)
    · have hs0 : s.sp ≠ 0#8 := fun h0 => by simp [h0] at hs
      exact .inr (.inl ⟨_, .inr (.inr rfl), pushed hs0 _ fun kept => h ((Memory.read_write_ne _ _ hk).trans kept)⟩)
  | jeq | jne | jlt | jgt => split at h <;> exact absurd rfl h
  | _ => exact absurd rfl h

/-- ST of two registers: one byte of memory, and pc moves on (R142). -/
theorem exec_st (a b : Reg) (s : State) :
    exec (.st (regByte a) (regByte b)) s =
      .next (fallthrough 2 { s with mem := s.mem.write (indirectAddress a s) (s.reg b) }) := by
  simp [exec, execSt, indirectAddress]

/-! ## The instruction register -/

/-- No instruction writes ir: only the fetch does (R28). -/
theorem effect_ir {i : Instr} {s t : State} (e : Effect i s t) : t.ir = s.ir := by
  cases e with
  | jeq | jne | jlt | jgt => split <;> rfl
  | _ => rfl

theorem exec_ir {i : Instr} {s t : State} (h : exec i s = .next t) : t.ir = s.ir := by
  rcases exec_cases h with e | ⟨f, rfl, -⟩
  · exact effect_ir e
  · rfl

/-- Every tick answers a next state. -/
theorem step_answers (s : State) : ∃ t, step s = .next t := by
  cases hr : s.run with
  | halted => exact ⟨s, step_of_halted hr⟩
  | running =>
    rcases hf : fetch s with ⟨t, f | i⟩
    · exact ⟨takeFault f t, step_of_fetch_error hr hf⟩
    · rw [step_of_fetch_ok hr hf]
      exact exec_answers i t

/-- A tick in RUNNING that finds pc in memory leaves the opcode it fetched in ir, also when it faults (R93). -/
theorem step_ir {s t : State} (hr : s.run = .running) (hp : s.pc.toNat < 256) (h : step s = .next t) :
    t.ir = s.byteAt s.pc.toNat := by
  rcases step_cases h with ⟨hh, -⟩ | ⟨-, hge, -⟩ | ⟨-, -, ⟨f, -, rfl⟩ | ⟨i, -, he⟩⟩
  · rw [hr] at hh; cases hh
  · omega
  · rfl
  · exact exec_ir he

end Sys2Proof.Machine

/-! The loader (R64): one rule per case of load, then what a whole image does, by induction on the image. -/

namespace Sys2Proof.Machine

@[simp] theorem load_nil (s : State) : load [] s = s := rfl

theorem load_cons_of_lt {addr : Nat} (v : Byte) (image : List (Nat × Byte)) (s : State) (h : addr < 256) :
    load ((addr, v) :: image) s = load image { s with mem := s.mem.write addr v } := by
  rw [load, memWrite_of_lt v s h]

theorem load_cons_of_ge {addr : Nat} (v : Byte) (image : List (Nat × Byte)) (s : State) (h : 256 ≤ addr) :
    load ((addr, v) :: image) s = takeFault (.addressOutOfRange addr) s := by
  rw [load, memWrite_of_ge v s h]

/-- The loader keeps a legal state legal, whatever the image: a write in range keeps memory canonical, one out of range is
a fault. -/
theorem inv_load (image : List (Nat × Byte)) {s : State} (hs : s.Inv) : (load image s).Inv := by
  induction image generalizing s with
  | nil => exact hs
  | cons c image ih =>
    obtain ⟨addr, v⟩ := c
    by_cases ha : addr < 256
    · rw [load_cons_of_lt v image s ha]
      obtain ⟨hpc, hfl, hmem, hint, herr⟩ := hs
      exact ih ⟨hpc, hfl, Memory.wf_write hmem ha v, hint, herr⟩
    · rw [load_cons_of_ge v image s (Nat.not_lt.mp ha)]
      exact inv_takeFault hs _

/-- After an image in range the loader goes on with what follows it. -/
theorem load_append {image : List (Nat × Byte)} (h : ∀ c ∈ image, c.1 < 256) (later : List (Nat × Byte)) (s : State) :
    load (image ++ later) s = load later (load image s) := by
  induction image generalizing s with
  | nil => rfl
  | cons c image ih =>
    obtain ⟨hc, himage⟩ := List.forall_mem_cons.mp h
    rw [List.cons_append, load_cons_of_lt _ _ s hc, load_cons_of_lt _ _ s hc, ih himage]

/-- An image in range changes memory only. -/
theorem load_eq_with_mem {image : List (Nat × Byte)} (h : ∀ c ∈ image, c.1 < 256) (s : State) :
    load image s = { s with mem := (load image s).mem } := by
  induction image generalizing s with
  | nil => rfl
  | cons c image ih =>
    obtain ⟨hc, himage⟩ := List.forall_mem_cons.mp h
    rw [load_cons_of_lt _ _ s hc]
    exact ih himage _

/-- After an image in range a cell holds the last byte the image gives it, or what it held before. -/
theorem load_byteAt {image : List (Nat × Byte)} (h : ∀ c ∈ image, c.1 < 256) (s : State) (a : Nat) :
    (load image s).byteAt a = ((image.reverse.find? (fun c => decide (c.1 = a))).map (fun c => c.2)).getD (s.byteAt a) := by
  induction image using List.reverseRecOn with
  | nil => rfl
  | append_singleton image c ih =>
    obtain ⟨himage, hlast⟩ := List.forall_mem_append.mp h
    have hc : c.1 < 256 := hlast c (List.mem_singleton_self c)
    rw [load_append himage, load_cons_of_lt _ _ _ hc, load_nil, List.reverse_concat]
    by_cases ha : c.1 = a
    · subst ha
      simp [byteAt_write_same]
    · rw [byteAt_write_ne _ _ (Ne.symm ha), ih himage, List.find?_cons_of_neg (by simpa using ha)]

end Sys2Proof.Machine

/-! The statements of 20_memory.md, each settled from the lemmas above. -/

namespace Sys2Proof.Machine

/-- Settles O18: the reset state is legal, and the loader keeps it so. -/
theorem launchStateIsLegal : Obligations.LaunchStateIsLegal := fun image => inv_load image resetStateIsLegal

/-- Settles O22: a fault keeps memory, and an effect changes only the bytes it stores or pushes. -/
theorem memoryWrittenByStoresAndPushesOnly : Obligations.MemoryWrittenByStoresAndPushesOnly := by
  intro i s t addr h hne
  exact effect_changed_byte (effect_of_changed (State.byteAt · addr) (takeFault_byteAt · s addr) h hne) hne

/-- Settles O28: the laws of the loader, from the reset state, whose memory reads 0. -/
theorem loaderWritesInOrder : Obligations.LoaderWritesInOrder := fun _ h =>
  ⟨load_byteAt h State.reset, load_eq_with_mem h State.reset⟩

/-- Settles O29: the image before the bad address is loaded whole, pc still 0, and the bad address is a fault. -/
theorem loaderBadAddressHalts : Obligations.LoaderBadAddressHalts := by
  intro image later addr v h haddr
  have hpc : (launch image).pc = 0#9 := congrArg State.pc (load_eq_with_mem h State.reset)
  calc launch (image ++ (addr, v) :: later)
      = load ((addr, v) :: later) (launch image) := load_append h _ State.reset
    _ = takeFault (.addressOutOfRange addr) (launch image) := load_cons_of_ge v later _ haddr
    _ = { launch image with err := some ⟨.addressOutOfRange addr, 0#9⟩, run := .halted } := by rw [← hpc]; rfl

/-- Settles O53: the ST leaves its byte at the next pc, which is an address, so the next tick fetches it. -/
theorem storedByteIsFetchedNext : Obligations.StoredByteIsFetchedNext := by
  intro a b s t hr h hpc
  have hlt : t.pc.toNat < 256 := hpc ▸ (s.reg a).isLt
  obtain ⟨u, hu⟩ := step_answers t
  rw [exec_st] at h
  have hrun : t.run = .running := by cases h; exact hr
  have hbyte : t.byteAt (indirectAddress a s) = s.reg b := by cases h; exact byteAt_write_same s _ _
  exact ⟨u, hu, by rw [step_ir hrun hlt hu, hpc, hbyte]⟩

end Sys2Proof.Machine

/-! The table read both ways: what a handler builds from operand bytes ties the opcode map to decode, encode and the operand count. -/

namespace Sys2Proof.Machine

/-- `Builds h args i`: the handler h, given exactly the operand bytes args, makes the instruction i (R70). -/
inductive Builds : Handler → List Byte → Instr → Prop
  | f0 (i : Instr) : Builds (.f0 i) [] i
  | f1 (mk : Byte → Instr) (a : Byte) : Builds (.f1 mk) [a] (mk a)
  | f2 (mk : Byte → Byte → Instr) (a b : Byte) : Builds (.f2 mk) [a, b] (mk a b)

theorem builds_operandCount {h : Handler} {args : List Byte} {i : Instr} (hb : Builds h args i) :
    h.operandCount = args.length := by
  cases hb <;> rfl

/-- Every handler builds something. -/
theorem exists_builds (h : Handler) : ∃ args i, Builds h args i := by
  cases h with
  | f0 i => exact ⟨_, _, .f0 i⟩
  | f1 mk => exact ⟨_, _, .f1 mk 0#8⟩
  | f2 mk => exact ⟨_, _, .f2 mk 0#8 0#8⟩

/-! ## The opcode map against the encoder -/

/-- What the handler of a byte builds is encoded as that byte and the operands. -/
theorem encode_of_builds {op : Byte} {h : Handler} {args : List Byte} {i : Instr} (hh : handler op = some h)
    (hb : Builds h args i) : encode i = op :: args := by
  have key := handler_builds hh
  cases hb with
  | f0 => exact key
  | f1 _ a => exact key a
  | f2 _ a b => exact key a b

/-- The handler of an instruction's opcode builds the instruction from its own operand bytes: the 30 rows of R78. -/
theorem handler_opcode (i : Instr) : ∃ h, handler i.opcode = some h ∧ Builds h i.operandBytes i := by
  cases i with
  | nop | hlt | ret | iret => exact ⟨_, rfl, .f0 _⟩
  | inc a | dec a | not a | prn a | pra a | pop a | push a | call a | jmp a | jeq a | jne a | jlt a | jgt a | int a =>
    exact ⟨_, rfl, .f1 _ a⟩
  | add a b | sub a b | mul a b | div a b | mod a b | or a b | xor a b | and a b | cmp a b | ldi a b | ld a b | st a b =>
    exact ⟨_, rfl, .f2 _ a b⟩

/-- An instruction has as many operand bytes as the top two bits of its opcode say (R71). -/
theorem operandBytes_length (i : Instr) : i.operandBytes.length = i.opcode.toNat / 64 := by
  cases i <;> simp [Instr.operandBytes, Instr.opcode]

/-- A handler takes as many operands as the top two bits of its opcode say (R71). -/
theorem operandCount_of_handler {op : Byte} {h : Handler} (hh : handler op = some h) : h.operandCount = op.toNat / 64 := by
  obtain ⟨args, i, hb⟩ := exists_builds h
  obtain ⟨rfl, rfl⟩ := List.cons.inj (encode_of_builds hh hb)
  rw [builds_operandCount hb, operandBytes_length]

/-- The column sets_pc of R78 has nine entries (R73, D23). -/
theorem setsPc_iff (i : Instr) : i.setsPc = true ↔
    i = .ret ∨ i = .iret ∨ ∃ a, i = .jmp a ∨ i = .jeq a ∨ i = .jne a ∨ i = .jlt a ∨ i = .jgt a ∨ i = .call a ∨ i = .int a := by
  cases i <;> simp [Instr.setsPc]

/-! ## The decoder -/

theorem decode_of_builds {op : Byte} {h : Handler} {args : List Byte} {i : Instr} (hh : handler op = some h)
    (hb : Builds h args i) (rest : List Byte) : decode (op :: args ++ rest) = .ok (i, rest) := by
  cases hb <;> simp [decode, hh]

theorem decode_of_not_opcode {op : Byte} (h : op ∉ opcodeBytes) (rest : List Byte) :
    decode (op :: rest) = .error (.unknownOpcode op) := by
  simp [decode, handler_none_iff.mpr h]

/-- Where the decoder succeeds: the first byte has a handler, which builds the instruction from the bytes that follow. -/
theorem decode_cases {bs rest : List Byte} {i : Instr} (h : decode bs = .ok (i, rest)) :
    ∃ op hd args, handler op = some hd ∧ Builds hd args i ∧ bs = op :: args ++ rest := by
  unfold decode at h
  split at h
  · cases h
  · rename_i op _
    split at h
    · cases h
    · rename_i hh; cases h; exact ⟨op, _, _, hh, .f0 i, rfl⟩
    · rename_i mk hh
      split at h
      · rename_i a _; cases h; exact ⟨op, _, _, hh, .f1 mk a, rfl⟩
      · cases h
    · rename_i mk hh
      split at h
      · rename_i a b _; cases h; exact ⟨op, _, _, hh, .f2 mk a b, rfl⟩
      · cases h
      · cases h

/-- The decoder inverts the encoder, whatever follows, and reads nothing else. -/
theorem decode_eq_ok_iff {bs rest : List Byte} {i : Instr} : decode bs = .ok (i, rest) ↔ bs = encode i ++ rest := by
  constructor
  · intro h
    obtain ⟨op, hd, args, hh, hb, rfl⟩ := decode_cases h
    rw [encode_of_builds hh hb]
  · rintro rfl
    obtain ⟨hd, hh, hb⟩ := handler_opcode i
    exact decode_of_builds hh hb rest

/-- Bytes after those that decode are left over. -/
theorem decode_append {bs rest : List Byte} {i : Instr} (h : decode bs = .ok (i, rest)) (more : List Byte) :
    decode (bs ++ more) = .ok (i, rest ++ more) := by
  rw [decode_eq_ok_iff] at h ⊢
  rw [h, List.append_assoc]

theorem decode_of_decodeTableWord {nbits w : Nat} {i : Instr} (h : decodeTableWord nbits w = some i) :
    ∃ rest, decode (wordBytes nbits w) = .ok (i, rest) := by
  unfold decodeTableWord at h
  split at h
  · rename_i j rest hd; cases h; exact ⟨rest, hd⟩
  · cases h

end Sys2Proof.Machine

/-! The fetch against the decoder: a tick runs what the bytes of memory from pc on decode to, and placing bytes puts them there. -/

namespace Sys2Proof.Machine

/-! ## The bytes a fetch can read -/

/-- The byte k past pc, as far as memory goes. -/
theorem bytesFromPc_getElem? (s : State) (k : Nat) :
    s.bytesFromPc[k]? = if s.pc.toNat + k < 256 then some (s.byteAt (s.pc.toNat + k)) else none := by
  have hk : k < Config.memSize - s.pc.toNat ↔ s.pc.toNat + k < 256 := Nat.lt_sub_iff_add_lt'
  rw [State.bytesFromPc, List.getElem?_map]
  split
  next hlt => rw [List.getElem?_range (hk.mpr hlt), Option.map_some]
  next hge =>
    rw [List.getElem?_eq_none, Option.map_none]
    rwa [List.length_range, ← not_lt, hk]

theorem memRead_of_bytesFromPc {s : State} {k : Nat} {v : Byte} (h : s.bytesFromPc[k]? = some v) :
    memRead (s.pc.toNat + k) s = .ok v := by
  rw [bytesFromPc_getElem?] at h
  split at h
  · rename_i hlt
    cases h
    exact memRead_of_lt s hlt
  · cases h

/-- A handler whose operands stand after pc fetches them and makes the instruction (R94). -/
theorem fetchOperands_of_builds {h : Handler} {args : List Byte} {i : Instr} {s : State} (hb : Builds h args i)
    (hargs : ∀ k v, args[k]? = some v → memRead (s.pc.toNat + (k + 1)) s = .ok v) : fetchOperands h s = .ok i := by
  cases hb with
  | f0 => rfl
  | f1 mk a => simp [fetchOperands, hargs 0 a rfl]
  | f2 mk a b => simp [fetchOperands, hargs 0 a rfl, hargs 1 b rfl]

/-- Where the bytes from pc on decode, a tick in RUNNING executes the instruction they decode to, ir its opcode (R92). -/
theorem step_of_decode {s : State} {i : Instr} {rest : List Byte} (hr : s.run = .running)
    (h : decode s.bytesFromPc = .ok (i, rest)) : step s = exec i { s with ir := i.opcode } := by
  obtain ⟨op, hd, args, hh, hb, hbytes⟩ := decode_cases h
  have hop : i.opcode = op := (List.cons.inj (encode_of_builds hh hb)).1
  have hread : memRead s.pc.toNat s = .ok op := memRead_of_bytesFromPc (k := 0) (by rw [hbytes]; rfl)
  have hargs (k : Nat) (v : Byte) (hk : args[k]? = some v) : memRead (s.pc.toNat + (k + 1)) s = .ok v :=
    memRead_of_bytesFromPc (by
      obtain ⟨hlt, -⟩ := List.getElem?_eq_some_iff.mp hk
      rw [hbytes, List.cons_append, List.getElem?_cons_succ, List.getElem?_append_left hlt, hk])
  have hfetch : fetch s = ({ s with ir := op }, .ok i) := by
    simp only [fetch, hread, decodeAndFetchOperands, hh]
    rw [fetchOperands_of_builds (s := { s with ir := op }) hb hargs]
  rw [step_of_fetch_ok hr hfetch, hop]

/-! ## Placing bytes -/

/-- Placing bytes leaves every address after them alone. -/
theorem Memory.read_place_ge (m : Memory) {a k : Nat} (vs : List Byte) (h : a + vs.length ≤ k) :
    (m.place a vs).read k = m.read k := by
  induction vs generalizing m a with
  | nil => rfl
  | cons v vs ih =>
    rw [List.length_cons] at h
    simp only [Memory.place]
    rw [ih _ (by omega)]
    split
    · exact m.read_write_ne v (by omega)
    · rfl

/-- A placed byte that lies in memory is read back at its place. -/
theorem Memory.read_place_getElem (m : Memory) {a j : Nat} {vs : List Byte} (hj : j < vs.length) (h : a + j < 256) :
    (m.place a vs).read (a + j) = vs[j] := by
  induction vs generalizing m a j with
  | nil => cases hj
  | cons v vs ih =>
    cases j with
    | zero => exact m.read_place_head v vs h
    | succ j =>
      have hplace : a + (j + 1) = a + 1 + j := by omega
      rw [hplace] at h ⊢
      exact ih _ (Nat.lt_of_succ_lt_succ hj) h

/-- Bytes placed at pc that fit in memory are the first a fetch can read. -/
theorem place_prefix_bytesFromPc (s : State) {vs : List Byte} (h : s.pc.toNat + vs.length ≤ 256) :
    vs <+: { s with mem := s.mem.place s.pc.toNat vs }.bytesFromPc := by
  refine List.prefix_iff_getElem?.mpr fun j hj => ?_
  have hlt : s.pc.toNat + j < 256 := by omega
  rw [bytesFromPc_getElem?, if_pos hlt]
  exact congrArg some (s.mem.read_place_getElem hj hlt)

end Sys2Proof.Machine

/-! The statements of 30_encoding.md, each settled from the lemmas above. -/

namespace Sys2Proof.Machine

/-- Settles O1: seven words are the encodings of their instructions, and 0xC0 is none of the opcode bytes. -/
theorem oneWordOfEachFamilyDecodes : Obligations.OneWordOfEachFamilyDecodes := by
  have none_C0 : 0xC0#8 ∉ opcodeBytes := by decide
  exact ⟨decode_eq_ok_iff.mpr rfl, decode_eq_ok_iff.mpr rfl, decode_eq_ok_iff.mpr rfl, decode_eq_ok_iff.mpr rfl,
    decode_eq_ok_iff.mpr rfl, decode_eq_ok_iff.mpr rfl, decode_eq_ok_iff.mpr rfl, decode_of_not_opcode none_C0 []⟩

/-- Settles O2: the bytes of each row are the encoding of its instruction, and a byte outside the map has no handler. -/
theorem opcodeMapIsTheThirtyRows : Obligations.OpcodeMapIsTheThirtyRows := by
  refine ⟨fun a b rest => ?_, setsPc_iff, fun _ rest h => decode_of_not_opcode h rest, ?_⟩
  · and_intros <;> exact decode_eq_ok_iff.mpr rfl
  · set_option maxRecDepth 4000 in decide

/-- Settles O4: the handler of the opcode builds the instruction from its operand bytes. -/
theorem decodeOfEncodeIsTheInstruction : Obligations.DecodeOfEncodeIsTheInstruction := fun _ _ => decode_eq_ok_iff.mpr rfl

/-- Settles O5: what a handler builds is encoded as the bytes it was read from. -/
theorem encodeOfDecodeIsTheBytes : Obligations.EncodeOfDecodeIsTheBytes := fun _ _ _ => decode_eq_ok_iff.mp

/-- Settles O6: no handler takes three operands, so the bytes with top bits 11 have none. -/
theorem topTwoBitsGiveTheLength : Obligations.TopTwoBitsGiveTheLength := by
  refine ⟨fun _ _ => operandCount_of_handler, fun i => congrArg (· + 1) (operandBytes_length i), fun op => ?_, fun op hop => ?_⟩
  · have := op.isLt
    omega
  · refine Option.eq_none_iff_forall_ne_some.mpr fun h hh => ?_
    have hcount := operandCount_of_handler hh
    have hle : h.operandCount ≤ 2 := by cases h <;> simp [Handler.operandCount]
    omega

/-- Settles O9: the three bytes of the word fit at pc, so the fetch finds them there; placing touches memory at no other address. -/
theorem stepRunsPlacedWord : Obligations.StepRunsPlacedWord := by
  intro s nbits w i hr hpc hw
  have hfit : s.pc.toNat + (wordBytes nbits w).length ≤ 256 := Nat.add_le_add_right hpc 3
  obtain ⟨rest, hdecode⟩ := decode_of_decodeTableWord hw
  obtain ⟨more, hbytes⟩ := place_prefix_bytesFromPc s hfit
  refine ⟨step_of_decode (rest := rest ++ more) hr ?_, fun a ha => ?_, rfl⟩
  · exact hbytes ▸ decode_append hdecode more
  · rcases ha with hlt | hge
    · exact s.mem.read_place_lt _ hlt
    · exact s.mem.read_place_ge _ hge

end Sys2Proof.Machine

/-! The tick at the edges of memory, the end of a run, and the instructions that are one byte long (40_engine_nop_hlt.md). -/

namespace Sys2Proof.Machine

/-! ## Faults of the tick's fetch -/

/-- A fault of decode or operand fetch is entered from the state whose ir holds the opcode (R93, R95). -/
theorem step_of_decodeAndFetch_error {s : State} {f : Fault} (hr : s.run = .running) (hp : s.pc.toNat < 256)
    (hf : decodeAndFetchOperands (s.byteAt s.pc.toNat) { s with ir := s.byteAt s.pc.toNat } = .error f) :
    step s = .next (takeFault f { s with ir := s.byteAt s.pc.toNat }) :=
  step_of_fetch_error hr (hf ▸ fetch_of_lt hp)

/-- A handler whose operands do not all lie in memory faults at the first address past it (R94, D1). -/
theorem fetchOperands_past_memory {h : Handler} {s : State} (hp : s.pc.toNat < 256)
    (hpast : 256 ≤ s.pc.toNat + h.operandCount) : fetchOperands h s = .error (.addressOutOfRange 256) := by
  have past {k : Nat} (hk : s.pc.toNat + k = 256) : memRead (s.pc.toNat + k) s = .error (.addressOutOfRange 256) :=
    hk ▸ memRead_of_ge s hk.ge
  cases h with
  | f0 => exact absurd hpast (Nat.not_le.mpr hp)
  | f1 mk =>
    have hA : s.pc.toNat + 1 = 256 := le_antisymm hp hpast
    rw [fetchOperands, past hA, bind_error]
  | f2 mk =>
    by_cases hA : s.pc.toNat + 1 = 256
    · rw [fetchOperands, past hA, bind_error]
    · have hB : s.pc.toNat + 2 = 256 := le_antisymm (lt_of_le_of_ne hp hA) hpast
      rw [fetchOperands, memRead_of_lt s (lt_of_le_of_ne hp hA), bind_ok, past hB, bind_error]

/-! ## The end of a run -/

/-- An instruction without a fault that changes the run state is HLT (R101). -/
theorem effect_run {i : Instr} {s t : State} (e : Effect i s t) : t.run = s.run ∨ i = .hlt := by
  cases e with
  | hlt => exact .inr rfl
  | jeq | jne | jlt | jgt => split <;> exact .inl rfl
  | _ => exact .inl rfl

/-- Ticks requested in HALTED change nothing (D21). -/
theorem run_of_halted {s : State} (h : s.run = .halted) (n : Nat) : Host.Core.run Sys2Proof.core n s = .next s := by
  induction n with
  | zero => rfl
  | succ n ih => rw [run_succ n (step_of_halted h), ih]

/-! ## One-byte instructions -/

/-- A tick that finds the opcode of an instruction without operands executes that instruction, wherever it stands. -/
theorem step_of_opcode {s : State} {i : Instr} (hr : s.run = .running) (hp : s.pc.toNat < 256)
    (hop : s.byteAt s.pc.toNat = i.opcode) (hi : i.operandBytes = []) : step s = exec i { s with ir := i.opcode } := by
  have hhead : s.bytesFromPc.head? = some i.opcode := by
    rw [List.head?_eq_getElem?, bytesFromPc_getElem?, Nat.add_zero, if_pos hp, hop]
  obtain ⟨rest, hbytes⟩ := List.head?_eq_some_iff.mp hhead
  have hencode : encode i = [i.opcode] := congrArg (i.opcode :: ·) hi
  exact step_of_decode hr (rest := rest) (decode_eq_ok_iff.mpr (by rw [hbytes, hencode, List.singleton_append]))

/-- The 9-bit sum of pc and a length is their sum as numbers, put into 9 bits. -/
theorem pc_add_ofNat (pc : PcWord) (n : Nat) : pc + BitVec.ofNat 9 n = BitVec.ofNat 9 (pc.toNat + n) := by
  rw [BitVec.ofNat_add, BitVec.ofNat_toNat, BitVec.setWidth_eq]

theorem exec_nop (s : State) : exec .nop s = .next { s with pc := s.pc + 1#9 } := rfl

theorem exec_hlt (s : State) : exec .hlt s = .next { s with run := .halted, pc := s.pc + 1#9 } := rfl

end Sys2Proof.Machine

/-! The statements of 40_engine_nop_hlt.md, each settled from the lemmas above. -/

namespace Sys2Proof.Machine

/-- Settles O12: in both cases the handler's last operand lies at address 256 or past it. -/
theorem operandFetchPastMemoryFaults : Obligations.OperandFetchPastMemoryFaults := by
  intro s h hr hh hedge
  obtain ⟨hp, hpast⟩ : s.pc.toNat < 256 ∧ 256 ≤ s.pc.toNat + h.operandCount := by
    rcases hedge with ⟨hpc, hcount⟩ | ⟨hpc, hcount⟩
    · rw [hpc]
      exact ⟨by decide, Nat.add_le_add_left hcount 255⟩
    · rw [hpc, hcount]
      decide
  refine step_of_decodeAndFetch_error hr hp ?_
  rw [decodeAndFetchOperands, hh]
  exact fetchOperands_past_memory hp hpast

/-- Settles O15: a fault would stand in err, and the only effect that halts is that of HLT. -/
theorem onlyHltEndsWithoutFault : Obligations.OnlyHltEndsWithoutFault := by
  rintro s t hr - h ⟨hhalt, hok⟩
  rcases step_cases h with ⟨hh, -⟩ | ⟨-, -, rfl⟩ | ⟨-, hp, ⟨f, -, rfl⟩ | ⟨i, hi, he⟩⟩
  · exact absurd (hh.symm.trans hr) (by decide)
  · cases hok
  · cases hok
  · refine ⟨Nat.le_of_lt_succ hp, ?_⟩
    rcases exec_cases he with e | ⟨f, rfl, -⟩
    · rcases effect_run e with hrun | rfl
      · exact absurd (hhalt.symm.trans (hrun.trans hr)) (by decide)
      · exact (opcode_of_fetched hi).symm
    · cases hok

/-- Settles O26: without a fault the instruction had its effect, which moves pc by its length, and the sum is at most 256. -/
theorem pcAdvancesByLength : Obligations.PcAdvancesByLength := by
  intro i s t hset herr hfit h hok
  rcases exec_cases h with e | ⟨f, rfl, -⟩
  · rcases effect_pc e with hpc | ⟨hset', -⟩
    · rw [hpc, pc_add_ofNat, BitVec.toNat_ofNat]
      omega
    · rw [hset] at hset'; cases hset'
  · cases hok

/-- Settles O8: the fetch reads the bytes the decoder does. -/
theorem stepRunsDecodedInstruction : Obligations.StepRunsDecodedInstruction := fun _ _ _ => step_of_decode

/-- Settles O10, by induction on the number of ticks. -/
theorem haltedTicksChangeNothing : Obligations.HaltedTicksChangeNothing := fun _ n h => run_of_halted h n

/-- Settles O11: the opcode fetch at 256 is a read past memory, and ir is not yet written. -/
theorem opcodeFetchPastMemoryFaults : Obligations.OpcodeFetchPastMemoryFaults := by
  intro s hr hpc
  have hp : s.pc.toNat = 256 := by rw [hpc]; rfl
  rw [step_of_fetch_error hr (fetch_of_ge hp.ge), hp, takeFault, hpc]

/-- Settles O30: a tick on the byte 0x00 executes NOP, whose sum is taken in the 9 bits of pc. -/
theorem nopAdvancesOnly : Obligations.NopAdvancesOnly := by
  refine ⟨rfl, exec_nop, fun s hr hp hop => ?_⟩
  rw [step_of_opcode (i := .nop) hr (Nat.lt_succ_of_le hp) hop rfl, exec_nop, pc_add_ofNat]
  rfl

/-- Settles O31: a tick on the byte 0x01 executes HLT, which moves pc as NOP does. -/
theorem hltHaltsPastItself : Obligations.HltHaltsPastItself := by
  refine ⟨rfl, exec_hlt, fun s hr hp hop => ?_⟩
  rw [step_of_opcode (i := .hlt) hr (Nat.lt_succ_of_le hp) hop rfl, exec_hlt, pc_add_ofNat]
  rfl

end Sys2Proof.Machine

/-! The ALU's two shapes (41_alu.md), each by what it answers: the value in operand A's register and the frame, or the fault. Then
the operations on bytes as numbers and bits, and the flags of a comparison. -/

namespace Sys2Proof.Machine

/-! ## What the shapes answer -/

theorem attempt_aluUnary (f : Byte → Byte) (a : Reg) (s : State) :
    attempt s (aluUnary f (regByte a) s) = .next (fallthrough 1 (s.setReg a (f (s.reg a)))) := by
  rw [aluUnary_regByte, attempt_ok]

theorem attempt_aluBinary {f : Byte → Byte → Except Fault Byte} {a b : Reg} {s : State} {v : Byte}
    (hv : f (s.reg a) (s.reg b) = .ok v) :
    attempt s (aluBinary f (regByte a) (regByte b) s) = .next (fallthrough 2 (s.setReg a v)) := by
  rw [aluBinary_regByte, hv, bind_ok, attempt_ok]

/-- A fault of the operation is entered from the state the instruction began in, so the dividend is kept (R204). -/
theorem attempt_aluBinary_error {f : Byte → Byte → Except Fault Byte} {a b : Reg} {s : State} {e : Fault}
    (he : f (s.reg a) (s.reg b) = .error e) :
    attempt s (aluBinary f (regByte a) (regByte b) s) = .next (takeFault e s) := by
  rw [aluBinary_regByte, he, bind_error, attempt_error]

theorem exec_cmp (a b : Reg) (s : State) :
    exec (.cmp (regByte a) (regByte b)) s =
      .next (fallthrough 2 { s with fl := compareFlags (s.reg a) (s.reg b) s.fl }) := by
  simp [exec, execCmp]

theorem reg_fallthrough_setReg (n : Nat) (s : State) (a : Reg) (v : Byte) : (fallthrough n (s.setReg a v)).reg a = v := by
  rw [fallthrough_reg, reg_setReg_same]

/-- Writing one register and moving on changes that register and pc only. -/
theorem registerFrame_fallthrough_setReg (n : Nat) (s : State) (a : Reg) (v : Byte) :
    RegisterFrame a s (fallthrough n (s.setReg a v)) :=
  ⟨fun _ hr => reg_setReg_ne s v hr, fun _ => rfl, rfl, rfl, rfl, rfl, rfl, rfl, rfl, rfl⟩

/-! ## The register checks -/

/-- An instruction whose rule begins with CheckReg of operand A checks it before all else (R202). -/
theorem checksOperandA_of_checkReg {mk : Byte → Instr} {g : State → Reg → Except Fault State}
    (h : ∀ a s, exec (mk a) s = attempt s (checkReg a >>= g s)) : ChecksOperandA mk := by
  intro a s ha
  rw [FaultsWith, h, checkA_of_ge ha]
  rfl

/-- An instruction whose rule begins with CheckReg of A, then of B, checks them in that order (R202, R207). -/
theorem checksOperandsAB_of_checkReg {mk : Byte → Byte → Instr} {g : State → Reg → Reg → Except Fault State}
    (h : ∀ a b s, exec (mk a b) s = attempt s (checkReg a >>= fun ra => checkReg b >>= g s ra)) : ChecksOperandsAB mk := by
  refine ⟨fun a b s ha => ?_, fun a b s ha hb => ?_⟩
  · rw [FaultsWith, h, checkA_of_ge ha]
    rfl
  · obtain ⟨ra, rfl⟩ := exists_regByte ha
    rw [FaultsWith, h, checkReg_regByte, bind_ok, checkA_of_ge hb]
    rfl

/-! ## The operations on bytes -/

/-- Subtraction of bytes is that of the integers modulo 256 (R111). -/
theorem toNat_sub_emod (p q : Byte) : ((p - q).toNat : Int) = ((p.toNat : Int) - q.toNat) % 256 := by
  have := q.isLt
  rw [BitVec.toNat_sub]
  omega

theorem aluDiv_of_ne (p : Byte) {q : Byte} (hq : q ≠ 0#8) : aluDiv p q = .ok (p / q) := by
  rw [aluDiv, if_neg hq, ← BitVec.toNat_udiv, BitVec.ofNat_toNat, BitVec.setWidth_eq]

theorem aluMod_of_ne (p : Byte) {q : Byte} (hq : q ≠ 0#8) : aluMod p q = .ok (p % q) := by
  rw [aluMod, if_neg hq, ← Nat.mod_eq_sub_mul_div, ← BitVec.toNat_umod, BitVec.ofNat_toNat, BitVec.setWidth_eq]

theorem aluDiv_of_zero (p : Byte) {q : Byte} (hq : q = 0#8) : aluDiv p q = .error .divisionByZero := if_pos hq

theorem aluMod_of_zero (p : Byte) {q : Byte} (hq : q = 0#8) : aluMod p q = .error .divisionByZero := if_pos hq

/-- 255 - v is the complement of v, since 255 is the byte of eight ones (R124). -/
theorem aluNot_eq_not (p : Byte) : aluNot p = ~~~p := BitVec.allOnes_sub_eq_not p

/-! ## The flags of a comparison -/

/-- A flags byte is its bits 7:3 and its three flags. -/
theorem eq_of_flags {f g : Byte} (hhigh : f &&& 0xF8#8 = g &&& 0xF8#8) (hE : f.getLsbD 0 = g.getLsbD 0)
    (hG : f.getLsbD 1 = g.getLsbD 1) (hL : f.getLsbD 2 = g.getLsbD 2) : f = g := by
  refine BitVec.eq_of_getLsbD_eq fun k hk => ?_
  have hbit := congrArg (BitVec.getLsbD · k) hhigh
  simp only [BitVec.getLsbD_and] at hbit
  interval_cases k
  · exact hE
  · exact hG
  · exact hL
  all_goals simpa using hbit

/-- Where fl[7:3] are zero a comparison leaves exactly one flag, by the order of the two numbers (R125). -/
theorem compareFlags_one_flag (p q : Byte) {fl : Byte} (hfl : fl &&& 0xF8#8 = 0#8) :
    compareFlags p q fl = flagE ∨ compareFlags p q fl = flagG ∨ compareFlags p q fl = flagL := by
  have hhigh := (compareFlags_high p q fl).trans hfl
  rcases Nat.lt_trichotomy p.toNat q.toNat with hlt | heq | hgt
  · refine .inr (.inr (eq_of_flags hhigh ?_ ?_ ?_)) <;> rw [compareFlags_bit] <;> simp [flagL, hlt, hlt.ne, hlt.le]
  · refine .inl (eq_of_flags hhigh ?_ ?_ ?_) <;> rw [compareFlags_bit] <;> simp [flagE, heq]
  · refine .inr (.inl (eq_of_flags hhigh ?_ ?_ ?_)) <;> rw [compareFlags_bit] <;> simp [flagG, hgt, hgt.ne', hgt.le]

end Sys2Proof.Machine

/-! The statements of 41_alu.md, each settled from the lemmas above. -/

namespace Sys2Proof.Machine

/-- Settles O32: the one-register shape with the byte sum and difference, each read as a number modulo 256. -/
theorem incDecWrapModulo256 : Obligations.IncDecWrapModulo256 := by
  refine ⟨fun _ => ⟨rfl, rfl⟩,
    fun a s => ⟨_, attempt_aluUnary _ a s, ?_, rfl, registerFrame_fallthrough_setReg ..⟩,
    fun a s => ⟨_, attempt_aluUnary _ a s, ?_, rfl, registerFrame_fallthrough_setReg ..⟩,
    checksOperandA_of_checkReg fun _ _ => rfl, checksOperandA_of_checkReg fun _ _ => rfl⟩
  · rw [reg_fallthrough_setReg]
    exact BitVec.toNat_add _ _
  · rw [reg_fallthrough_setReg]
    exact toNat_sub_emod _ _

/-- Settles O33: the two-register shape with the byte sum, difference and product; it leaves open whether a = b. -/
theorem addSubMulWrapModulo256 : Obligations.AddSubMulWrapModulo256 := by
  refine ⟨fun _ _ => ⟨rfl, rfl, rfl⟩,
    fun a b s => ⟨_, attempt_aluBinary rfl, ?_, rfl, registerFrame_fallthrough_setReg ..⟩,
    fun a b s => ⟨_, attempt_aluBinary rfl, ?_, rfl, registerFrame_fallthrough_setReg ..⟩,
    fun a b s => ⟨_, attempt_aluBinary rfl, ?_, rfl, registerFrame_fallthrough_setReg ..⟩,
    checksOperandsAB_of_checkReg fun _ _ _ => rfl, checksOperandsAB_of_checkReg fun _ _ _ => rfl,
    checksOperandsAB_of_checkReg fun _ _ _ => rfl⟩
  · rw [reg_fallthrough_setReg]
    exact BitVec.toNat_add _ _
  · rw [reg_fallthrough_setReg]
    exact toNat_sub_emod _ _
  · rw [reg_fallthrough_setReg]
    exact BitVec.toNat_mul _ _

/-- Settles O34: on bytes the model's quotient and remainder are those of the numbers, and the division theorem joins the two. -/
theorem divModGiveQuotientAndRemainder : Obligations.DivModGiveQuotientAndRemainder := by
  refine ⟨fun _ _ => ⟨rfl, rfl⟩,
    fun a b s hq => ⟨_, _, attempt_aluBinary (aluDiv_of_ne _ hq), attempt_aluBinary (aluMod_of_ne _ hq), ?_, ?_, ?_,
      rfl, registerFrame_fallthrough_setReg .., rfl, registerFrame_fallthrough_setReg ..⟩,
    fun a b s hq => ⟨attempt_aluBinary_error (aluDiv_of_zero _ hq), attempt_aluBinary_error (aluMod_of_zero _ hq)⟩,
    checksOperandsAB_of_checkReg fun _ _ _ => rfl, checksOperandsAB_of_checkReg fun _ _ _ => rfl⟩
  · rw [reg_fallthrough_setReg, reg_fallthrough_setReg, BitVec.toNat_udiv, BitVec.toNat_umod]
    exact (Nat.div_add_mod ..).symm
  · rw [reg_fallthrough_setReg, BitVec.toNat_umod]
    exact Nat.mod_lt _ (Nat.pos_of_ne_zero fun h0 => hq (BitVec.eq_of_toNat_eq h0))
  · rw [reg_fallthrough_setReg, BitVec.toNat_udiv]

/-- Settles O35: the two-register shape, each operation read at bit k. -/
theorem orXorAndActBitwise : Obligations.OrXorAndActBitwise := by
  refine ⟨fun _ _ => ⟨rfl, rfl, rfl⟩,
    fun a b s => ⟨_, attempt_aluBinary rfl, fun k => ?_, rfl, registerFrame_fallthrough_setReg ..⟩,
    fun a b s => ⟨_, attempt_aluBinary rfl, fun k => ?_, rfl, registerFrame_fallthrough_setReg ..⟩,
    fun a b s => ⟨_, attempt_aluBinary rfl, fun k => ?_, rfl, registerFrame_fallthrough_setReg ..⟩,
    checksOperandsAB_of_checkReg fun _ _ _ => rfl, checksOperandsAB_of_checkReg fun _ _ _ => rfl,
    checksOperandsAB_of_checkReg fun _ _ _ => rfl⟩
  · rw [reg_fallthrough_setReg, BitVec.getLsbD_or]
  · rw [reg_fallthrough_setReg, BitVec.getLsbD_xor]
  · rw [reg_fallthrough_setReg, BitVec.getLsbD_and]

/-- Settles O36: the byte is the complement, read once as a number and once bit by bit. -/
theorem notComplementsTheByte : Obligations.NotComplementsTheByte := by
  refine ⟨fun _ => rfl,
    fun a s => ⟨_, attempt_aluUnary _ a s, ?_, fun k hk => ?_, rfl, registerFrame_fallthrough_setReg ..⟩,
    checksOperandA_of_checkReg fun _ _ => rfl⟩
  · rw [reg_fallthrough_setReg, aluNot_eq_not, BitVec.toNat_not]
  · rw [reg_fallthrough_setReg, aluNot_eq_not, BitVec.getLsbD_not, decide_eq_true hk, Bool.true_and]

/-- Settles O37: every bit of the new flags is known, and so is the byte where the old bits 7:3 are zero. -/
theorem cmpWritesTheThreeFlags : Obligations.CmpWritesTheThreeFlags := by
  refine ⟨fun _ _ => rfl,
    fun a b s => ⟨_, exec_cmp a b s, compareFlags_bit _ _ _ 0, compareFlags_bit _ _ _ 1, compareFlags_bit _ _ _ 2,
      fun k hk => ?_, compareFlags_one_flag _ _, rfl, fun _ => rfl, fun _ => rfl, rfl, rfl, rfl, rfl, rfl, rfl, rfl⟩,
    checksOperandsAB_of_checkReg fun _ _ _ => rfl⟩
  rw [fallthrough_fl, compareFlags_bit, if_neg (by omega), if_neg (by omega), if_neg (by omega)]

end Sys2Proof.Machine

/-! Loads and stores (42_load_store.md): what LDI and LD answer for register operands (exec_st says it of ST), and ST's frame. -/

namespace Sys2Proof.Machine

theorem exec_ldi (a : Reg) (i : Byte) (s : State) :
    exec (.ldi (regByte a) i) s = .next (fallthrough 2 (s.setReg a i)) := by
  simp [exec, execLdi, immediate]

/-- A byte is always an address of memory, so LD's read does not fault (R141). -/
theorem exec_ld (a b : Reg) (s : State) :
    exec (.ld (regByte a) (regByte b)) s = .next (fallthrough 2 (s.setReg a (s.byteAt (s.reg b).toNat))) := by
  simp [exec, execLd, indirectAddress]

/-- Writing one byte of memory and moving on keeps every other byte. -/
theorem memoryKeptExcept_fallthrough_write (n : Nat) (s : State) (addr : Nat) (v : Byte) :
    MemoryKeptExcept addr s (fallthrough n { s with mem := s.mem.write addr v }) :=
  fun _ hne => byteAt_write_ne s v hne

end Sys2Proof.Machine

/-! The statements of 42_load_store.md, each settled from the lemmas above. -/

namespace Sys2Proof.Machine

/-- Settles O38: LDI's one write is the immediate as it stands, and its one check is that of operand A. -/
theorem ldiLoadsTheImmediate : Obligations.LdiLoadsTheImmediate :=
  ⟨fun _ _ => rfl,
    fun a i s => ⟨_, exec_ldi a i s, reg_fallthrough_setReg .., rfl, registerFrame_fallthrough_setReg ..⟩,
    fun _ => checksOperandA_of_checkReg fun _ _ => rfl⟩

/-- Settles O39: the byte is read in the state before the write, so it does not matter whether a = b. -/
theorem ldLoadsTheAddressedByte : Obligations.LdLoadsTheAddressedByte :=
  ⟨fun _ _ => rfl,
    fun a b s => ⟨_, exec_ld a b s, reg_fallthrough_setReg .., rfl, registerFrame_fallthrough_setReg ..⟩,
    checksOperandsAB_of_checkReg fun _ _ _ => rfl⟩

/-- Settles O40: ST changes memory at one address and pc; the write is read back there and nowhere else. -/
theorem stStoresOneByte : Obligations.StStoresOneByte :=
  ⟨fun _ _ => rfl,
    fun a b s => ⟨_, exec_st a b s, rfl, byteAt_write_same s _ _, memoryKeptExcept_fallthrough_write 2 s _ _, rfl,
      fun _ => rfl, rfl, rfl, rfl, rfl, rfl, rfl, rfl, rfl⟩,
    checksOperandsAB_of_checkReg fun _ _ _ => rfl⟩

end Sys2Proof.Machine

/-! The statement of 43_output.md, settled from what a print does (exec_prn, exec_pra) and the check of operand A. -/

namespace Sys2Proof.Machine

/-- Settles O41: appending the event and moving on is the stated record, and each rule's one check is that of operand A. -/
theorem prnPraEmitOneEvent : Obligations.PrnPraEmitOneEvent :=
  ⟨fun _ => ⟨rfl, rfl⟩, exec_prn, exec_pra,
    checksOperandA_of_checkReg fun _ _ => rfl, checksOperandA_of_checkReg fun _ _ => rfl⟩

end Sys2Proof.Machine

/-! The stack instructions (44_stack_call.md): what PUSH, POP, CALL and RET answer for a register operand, where the stack has
room and where it has not, and the numbers a return address goes through. -/

namespace Sys2Proof.Machine

/-! ## What the instructions answer -/

theorem exec_push_of_ne (a : Reg) {s : State} (hs : s.sp ≠ 0#8) :
    exec (.push (regByte a)) s =
      .next (fallthrough 1 { s with sp := s.sp - 1#8, mem := s.mem.write (s.sp - 1#8).toNat (s.reg a) }) := by
  simp [exec, execPush, push_of_ne _ hs]

theorem faultsWith_push_of_zero (a : Reg) {s : State} (hs : s.sp = 0#8) :
    FaultsWith (.push (regByte a)) .stackFault s := by
  simp [FaultsWith, exec, execPush, push_of_zero _ hs, takeFault]

theorem exec_pop_of_ne (a : Reg) {s : State} (hs : s.sp ≠ 255#8) :
    exec (.pop (regByte a)) s =
      .next (fallthrough 1 (State.setReg { s with sp := s.sp + 1#8 } a (s.byteAt s.sp.toNat))) := by
  simp [exec, execPop, pop_of_ne hs]

theorem faultsWith_pop_of_top (a : Reg) {s : State} (hs : s.sp = 255#8) :
    FaultsWith (.pop (regByte a)) .stackFault s := by
  simp [FaultsWith, exec, execPop, pop_of_top hs, takeFault]

theorem exec_call_of_fits (a : Reg) {s : State} (hp : s.pc.toNat ≤ 253) (hs : s.sp ≠ 0#8) :
    exec (.call (regByte a)) s = .next (jumpTo (s.reg a)
      { s with sp := s.sp - 1#8, mem := s.mem.write (s.sp - 1#8).toNat (BitVec.ofNat 8 (s.pc.toNat + 2)) }) := by
  simp [exec, execCall, returnAddress_of_le hp, push_of_ne _ hs]

/-- A return address past 255 is reported before the stack is looked at (R207, D20). -/
theorem faultsWith_call_past_memory (a : Reg) {s : State} (hp : 253 < s.pc.toNat) :
    FaultsWith (.call (regByte a)) (.addressOutOfRange (s.pc.toNat + 2)) s := by
  simp [FaultsWith, exec, execCall, returnAddress_of_gt hp, takeFault]

theorem faultsWith_call_of_zero (a : Reg) {s : State} (hp : s.pc.toNat ≤ 253) (hs : s.sp = 0#8) :
    FaultsWith (.call (regByte a)) .stackFault s := by
  simp [FaultsWith, exec, execCall, returnAddress_of_le hp, push_of_zero _ hs, takeFault]

theorem exec_ret_of_ne {s : State} (hs : s.sp ≠ 255#8) :
    exec .ret s = .next (jumpTo (s.byteAt s.sp.toNat) { s with sp := s.sp + 1#8 }) := by
  simp [exec, execRet, pop_of_ne hs]

theorem faultsWith_ret_of_top {s : State} (hs : s.sp = 255#8) : FaultsWith .ret .stackFault s := by
  simp [FaultsWith, exec, execRet, pop_of_top hs, takeFault]

/-! ## Addresses and the stack pointer as numbers -/

/-- A jump puts the byte itself into the 9 bits of pc (R25). -/
theorem jumpTo_pc_toNat (b : Byte) (s : State) : (jumpTo b s).pc.toNat = b.toNat :=
  BitVec.toNat_setWidth_of_le (Nat.le_succ 8)

/-- A return address that is an address is pushed as it is, without wrap (R164). -/
theorem toNat_returnAddress {pc : PcWord} (h : pc.toNat ≤ 253) : (BitVec.ofNat 8 (pc.toNat + 2)).toNat = pc.toNat + 2 := by
  rw [BitVec.toNat_ofNat]
  omega

/-- After a push there is something to pop: SP is not at the top. -/
theorem sp_sub_one_ne_top {sp : Byte} (h : sp ≠ 0#8) : sp - 1#8 ≠ 255#8 := by
  intro htop
  have hsp : sp = 255#8 + 1#8 := by rw [← htop, BitVec.sub_add_cancel]
  exact h hsp

end Sys2Proof.Machine

/-! The statements of 44_stack_call.md, each settled from the lemmas above. -/

namespace Sys2Proof.Machine

/-- Settles O42: the push is one write at the new SP and one step of SP; the only check before it is that of operand A. -/
theorem pushWritesBelowSp : Obligations.PushWritesBelowSp :=
  ⟨fun _ => rfl,
    fun a s hs => ⟨_, exec_push_of_ne a hs, sp_sub_one_succ hs, byteAt_write_same s _ _, fun _ hne => byteAt_write_ne s _ hne,
      rfl, rfl, fun _ => rfl, rfl, rfl, rfl, rfl, rfl, rfl, rfl⟩,
    fun a _ => faultsWith_push_of_zero a,
    checksOperandA_of_checkReg fun _ _ => rfl⟩

/-- Settles O43: the popped byte is one write to the register, and memory is only read. -/
theorem popReadsAtSp : Obligations.PopReadsAtSp :=
  ⟨fun _ => rfl,
    fun a s hs => ⟨_, exec_pop_of_ne a hs, reg_fallthrough_setReg .., sp_add_one_toNat hs, rfl,
      fun _ hne => reg_setReg_ne { s with sp := s.sp + 1#8 } _ hne, fun _ => rfl, rfl, rfl, rfl, rfl, rfl, rfl, rfl⟩,
    fun a _ => faultsWith_pop_of_top a,
    checksOperandA_of_checkReg fun _ _ => rfl⟩

/-- Settles O44: the push of pc + 2, a byte up to pc 253, then the jump; the faults in the order of the rule's lines. -/
theorem callPushesTheReturnAddress : Obligations.CallPushesTheReturnAddress := by
  refine ⟨fun _ => rfl,
    fun a s hp hs => ⟨_, exec_call_of_fits a hp hs, jumpTo_pc_toNat .., sp_sub_one_succ hs, rfl, ?_,
      fun _ hne => byteAt_write_ne s _ hne, fun _ => rfl, rfl, rfl, rfl, rfl, rfl, rfl, rfl⟩,
    fun a _ => faultsWith_call_past_memory a,
    fun a _ => faultsWith_call_of_zero a,
    checksOperandA_of_checkReg fun _ _ => rfl⟩
  rw [jumpTo_byteAt, State.byteAt, Memory.read_write_same]
  exact toNat_returnAddress hp

/-- Settles O45: the popped byte goes to pc, and memory is only read. -/
theorem retJumpsToThePoppedByte : Obligations.RetJumpsToThePoppedByte :=
  ⟨rfl,
    fun _ hs => ⟨_, exec_ret_of_ne hs, jumpTo_pc_toNat .., sp_add_one_toNat hs, fun _ => rfl, fun _ => rfl,
      rfl, rfl, rfl, rfl, rfl, rfl, rfl⟩,
    fun _ => faultsWith_ret_of_top⟩

/-- Settles O50: the POP reads the cell the PUSH wrote, and SP goes back up by the one it went down. -/
theorem pushThenPopMovesTheValue : Obligations.PushThenPopMovesTheValue := by
  intro a b s t hs h
  rw [exec_push_of_ne a hs] at h
  cases h
  refine ⟨_, exec_pop_of_ne b (sp_sub_one_ne_top hs), ?_, BitVec.sub_add_cancel s.sp 1#8, fun r hr => ?_⟩
  · rw [reg_fallthrough_setReg]
    exact byteAt_write_same s _ _
  · rw [fallthrough_reg, reg_setReg_ne _ _ hr]
    rfl

/-- Settles O51: the RET reads the cell of the CALL, which holds the address after it, and SP goes back up by one. -/
theorem callThenRetReturns : Obligations.CallThenRetReturns := by
  intro a s t u hp hs h hsp hcell
  rw [exec_call_of_fits a hp hs] at h
  cases h
  have hret : u.byteAt u.sp.toNat = BitVec.ofNat 8 (s.pc.toNat + 2) := hcell.trans (byteAt_write_same s _ _)
  have htop : u.sp ≠ 255#8 := hsp ▸ sp_sub_one_ne_top hs
  refine ⟨_, exec_ret_of_ne htop, ?_, ?_⟩
  · rw [jumpTo_pc_toNat, hret, toNat_returnAddress hp]
  · rw [jumpTo_sp, hsp]
    exact BitVec.sub_add_cancel s.sp 1#8

end Sys2Proof.Machine

/-! Branches (45_branch.md): what the common shape answers for a register operand, and the statements settled from it. -/

namespace Sys2Proof.Machine

/-- A branch writes pc and nothing else; `jump` is the rule's own condition, of which `taken` is the truth value (R180). -/
theorem attempt_branch {taken : Bool} {jump : Prop} [Decidable jump] (htaken : taken = true ↔ jump) (a : Reg) (s : State) :
    attempt s (branch taken (regByte a) s) =
      .next { s with pc := if jump then (jumpTo (s.reg a) s).pc else s.pc + 2#9 } := by
  rw [branch_regByte, attempt_ok]
  by_cases hj : jump
  · rw [if_pos hj, if_pos (htaken.mpr hj)]
    rfl
  · rw [if_neg hj, if_neg (mt htaken.mp hj)]
    rfl

/-- Settles O46: a branch whose condition is always true, and its one check is that of operand A. -/
theorem jmpRedirectsAlways : Obligations.JmpRedirectsAlways :=
  ⟨fun _ => rfl,
    fun a s => ⟨_, jumpTo_pc_toNat (s.reg a) s, attempt_branch (iff_true_intro rfl) a s⟩,
    checksOperandA_of_checkReg fun _ _ => rfl⟩

/-- Settles O47: each jump is a branch on its own bit, JNE on the bit's negation; the check comes before the bit is used. -/
theorem conditionalJumpsTestOneFlag : Obligations.ConditionalJumpsTestOneFlag :=
  ⟨fun _ => ⟨rfl, rfl, rfl, rfl⟩,
    fun a s => ⟨_, jumpTo_pc_toNat (s.reg a) s, attempt_branch Iff.rfl a s,
      attempt_branch (Bool.not_eq_true' _).to_iff a s, attempt_branch Iff.rfl a s, attempt_branch Iff.rfl a s⟩,
    checksOperandA_of_checkReg fun _ _ => rfl, checksOperandA_of_checkReg fun _ _ => rfl,
    checksOperandA_of_checkReg fun _ _ => rfl, checksOperandA_of_checkReg fun _ _ => rfl⟩

end Sys2Proof.Machine

/-! The software interrupt (46_interrupt.md): what INT and IRET answer where the stack has room for both cells and where it has
not, and the flags byte that IRET takes back. -/

namespace Sys2Proof.Machine

/-! ## What the instructions answer -/

theorem enterInterrupt_past_memory {s : State} (hp : 253 < s.pc.toNat) :
    enterInterrupt s = .error (.addressOutOfRange (s.pc.toNat + 2)) := by
  rw [enterInterrupt, returnAddress_of_gt hp, bind_error]

theorem enterInterrupt_of_full {s : State} (hp : s.pc.toNat ≤ 253) (hs : s.sp.toNat < 2) :
    enterInterrupt s = .error .stackFault := by
  rw [enterInterrupt, returnAddress_of_le hp, bind_ok, if_pos hs]

/-- INT of a register is the entry to the interrupt: the register's value selects nothing (R190). -/
theorem exec_int (a : Reg) (s : State) : exec (.int (regByte a)) s = attempt s (enterInterrupt s) := by
  simp [exec, execInt]

theorem exec_int_of_fits (a : Reg) {s : State} (hp : s.pc.toNat ≤ 253) (hs : 2 ≤ s.sp.toNat) :
    exec (.int (regByte a)) s = .next { s with
      sp := s.sp - 1#8 - 1#8
      mem := (s.mem.write (s.sp - 1#8).toNat (BitVec.ofNat 8 (s.pc.toNat + 2))).write (s.sp - 1#8 - 1#8).toNat s.fl
      pc := (jumpTo Config.intVector s).pc } := by
  rw [exec_int, enterInterrupt_of_fits hp hs, attempt_ok, jumpTo_pc]

/-- A return address past 255 is reported before the stack is looked at (R207, D20). -/
theorem faultsWith_int_past_memory (a : Reg) {s : State} (hp : 253 < s.pc.toNat) :
    FaultsWith (.int (regByte a)) (.addressOutOfRange (s.pc.toNat + 2)) s := by
  rw [FaultsWith, exec_int, enterInterrupt_past_memory hp, attempt_error, takeFault]

theorem faultsWith_int_of_full (a : Reg) {s : State} (hp : s.pc.toNat ≤ 253) (hs : s.sp.toNat < 2) :
    FaultsWith (.int (regByte a)) .stackFault s := by
  rw [FaultsWith, exec_int, enterInterrupt_of_full hp hs, attempt_error, takeFault]

theorem exec_iret_of_fits {s : State} (hs : s.sp.toNat ≤ 253) :
    exec .iret s = .next { s with
      sp := s.sp + 1#8 + 1#8
      fl := s.byteAt s.sp.toNat &&& 0x07#8
      pc := (jumpTo (s.byteAt (s.sp.toNat + 1)) s).pc } := by
  have htop : s.sp ≠ 255#8 := fun h => by simp [h] at hs
  rw [exec, execIret, returnFromInterrupt_of_fits hs, attempt_ok, sp_add_one_toNat htop, jumpTo_pc]

theorem faultsWith_iret_of_gt {s : State} (hs : 253 < s.sp.toNat) : FaultsWith .iret .stackFault s := by
  rw [FaultsWith, exec, execIret, returnFromInterrupt, if_pos hs, attempt_error, takeFault]

/-! ## The flags byte -/

/-- The mask of IRET keeps bits 2:0 (R192). -/
theorem getLsbD_and_seven (b : Byte) (k : Nat) : (b &&& 0x07#8).getLsbD k = (decide (k < 3) && b.getLsbD k) := by
  have hmask : Nat.testBit 7 k = decide (k < 3) := Nat.testBit_two_pow_sub_one 3 k
  rw [BitVec.getLsbD_and, BitVec.getLsbD_ofNat, hmask]
  by_cases hk : k < 3
  · have hbyte : k < 8 := by omega
    simp [hk, hbyte]
  · simp [hk]

/-- A flags byte with bits 7:3 zero passes IRET's mask unchanged. -/
theorem and_seven_of_high_zero {fl : Byte} (h : fl &&& 0xF8#8 = 0#8) : fl &&& 0x07#8 = fl := by
  refine eq_of_flags ?_ ?_ ?_ ?_
  · rw [BitVec.and_assoc, h]; simp
  all_goals simp

end Sys2Proof.Machine

/-! The statements of 46_interrupt.md, each settled from the lemmas above. -/

namespace Sys2Proof.Machine

/-- Settles O48: the two pushed cells are different addresses, so the second push keeps the return address of the first. -/
theorem intEntersTheHandler : Obligations.IntEntersTheHandler := by
  refine ⟨fun _ => rfl, fun a s hp hs => ?_,
    fun a _ => faultsWith_int_past_memory a,
    fun a _ => faultsWith_int_of_full a,
    checksOperandA_of_checkReg fun _ _ => rfl⟩
  have hsp0 : s.sp ≠ 0#8 := fun h => by simp [h] at hs
  have hone := sp_sub_one_succ hsp0
  have htwo := sp_sub_two_add_two hs
  have hne : (s.sp - 1#8).toNat ≠ (s.sp - 1#8 - 1#8).toNat := by omega
  refine ⟨_, exec_int_of_fits a hp hs, jumpTo_pc_toNat _ s, htwo, by dsimp only; omega, rfl, ?_, Memory.read_write_same ..,
    fun k hk1 hk2 => (Memory.read_write_ne _ _ hk2).trans (byteAt_write_ne s _ hk1),
    fun _ => rfl, rfl, rfl, rfl, rfl, rfl, rfl, rfl⟩
  rw [State.byteAt, Memory.read_write_ne _ _ hne, Memory.read_write_same]
  exact toNat_returnAddress hp

/-- Settles O49: the two cells are only read, and the mask on the flags is read bit by bit. -/
theorem iretReturnsFromTheHandler : Obligations.IretReturnsFromTheHandler :=
  ⟨rfl,
    fun s hs => ⟨_, exec_iret_of_fits hs, getLsbD_and_seven _, jumpTo_pc_toNat _ s, sp_add_two_toNat hs,
      fun _ => rfl, fun _ => rfl, rfl, rfl, rfl, rfl, rfl, rfl⟩,
    fun _ => faultsWith_iret_of_gt⟩

/-- Settles O52: IRET reads the two cells INT pushed, the flags at SP and the return address above them. -/
theorem intThenIretRestores : Obligations.IntThenIretRestores := by
  intro a s t u hp hs hfl h hsp hflags hret
  obtain ⟨-, entry, -⟩ := intEntersTheHandler
  obtain ⟨t', ht', -, htsp, hone, htwo, hpc, hcell, -⟩ := entry a s hp hs
  obtain rfl : t = t' := by simpa [h] using ht'
  rw [hone] at hpc
  rw [htwo] at hcell
  obtain ⟨-, back, -⟩ := iretReturnsFromTheHandler
  obtain ⟨v, hv, hvfl, hvpc, hvsp, -⟩ := back u (by rw [hsp]; omega)
  refine ⟨v, hv, by rw [hvpc, hret, hpc], BitVec.eq_of_toNat_eq (by rw [hvsp, hsp, htsp]),
    BitVec.eq_of_getLsbD_eq fun k _ => ?_⟩
  rw [hvfl, hflags, hcell, ← getLsbD_and_seven, and_seven_of_high_zero hfl]

end Sys2Proof.Machine

/-! Faults (60_exceptions.md): what a fault record after an instruction, and after a tick, says of its cause and of the state it
stands in; an opcode byte without a handler; and the first register operand that names no register. -/

namespace Sys2Proof.Machine

/-! ## What a record says -/

/-- A record an instruction leaves is that of a fault it raises, entered from the state it began in (R208). -/
theorem exec_faulted {i : Instr} {s t : State} {f : Fault} {p : PcWord} (h : exec i s = .next t) (herr : s.err = none)
    (ht : t.err = some ⟨f, p⟩) : p = s.pc ∧ t = takeFault f s ∧ Raises i s f := by
  rcases exec_cases h with e | ⟨g, rfl, hg⟩
  · rw [effect_err e, herr] at ht
    cases ht
  · cases ht
    exact ⟨rfl, rfl, hg⟩

/-- A record a tick leaves is that of the opcode fetch, entered before ir is written, or of decode, of operand fetch or of the
instruction, entered with the opcode in ir (R93, R208). -/
theorem step_faulted {s t : State} {f : Fault} {p : PcWord} (h : step s = .next t) (herr : s.err = none)
    (ht : t.err = some ⟨f, p⟩) :
    p = s.pc ∧
    ((256 ≤ s.pc.toNat ∧ f = .addressOutOfRange s.pc.toNat ∧ t = takeFault f s) ∨
     (s.pc.toNat < 256 ∧ t = takeFault f { s with ir := s.byteAt s.pc.toNat } ∧
       (decodeAndFetchOperands (s.byteAt s.pc.toNat) { s with ir := s.byteAt s.pc.toNat } = .error f ∨
         ∃ i, Raises i { s with ir := s.byteAt s.pc.toNat } f))) := by
  rcases step_cases h with ⟨-, rfl⟩ | ⟨-, hp, rfl⟩ | ⟨-, hp, ⟨g, hg, rfl⟩ | ⟨i, -, he⟩⟩
  · rw [herr] at ht
    cases ht
  · cases ht
    exact ⟨rfl, .inl ⟨hp, rfl, rfl⟩⟩
  · cases ht
    exact ⟨rfl, .inr ⟨hp, rfl, .inl hg⟩⟩
  · obtain ⟨hpc, hent, hcause⟩ := exec_faulted he herr ht
    exact ⟨hpc, .inr ⟨hp, hent, .inr ⟨i, hcause⟩⟩⟩

/-! ## Unknown opcodes -/

/-- A byte outside the opcode map is refused before any operand is fetched (R95, R203). -/
theorem decodeAndFetch_of_not_opcode {op : Byte} (h : op ∉ opcodeBytes) (s : State) :
    decodeAndFetchOperands op s = .error (.unknownOpcode op) := by
  rw [decodeAndFetchOperands, handler_none_iff.mpr h]

/-- Decode and operand fetch report UnknownOpcode only of the opcode itself, and only if it is outside the map (R203). -/
theorem not_opcode_of_decodeAndFetch_error {op b : Byte} {s : State}
    (h : decodeAndFetchOperands op s = .error (.unknownOpcode b)) : b = op ∧ op ∉ opcodeBytes := by
  rcases decodeAndFetch_error h with ⟨hn, hf⟩ | ⟨k, -, -, hf⟩
  · cases hf
    exact ⟨rfl, handler_none_iff.mp hn⟩
  · cases hf

/-! ## Register operands -/

/-- The first of an instruction's register operands that names no register (R202, R207). -/
def firstBadRegister (ops : List Byte) : Option Byte := ops.find? (fun b => decide (8 ≤ b.toNat))

theorem firstBadRegister_cons {a r : Byte} {ops : List Byte} (h : firstBadRegister (a :: ops) = some r) :
    (8 ≤ a.toNat ∧ a = r) ∨ (a.toNat < 8 ∧ firstBadRegister ops = some r) := by
  rcases Nat.lt_or_ge a.toNat 8 with ha | ha
  · exact .inr ⟨ha, by simpa [firstBadRegister, ha] using h⟩
  · exact .inl ⟨ha, by simpa [firstBadRegister, ha] using h⟩

theorem exists_firstBadRegister {r : Byte} {ops : List Byte} (hr : r ∈ ops) (h8 : 8 ≤ r.toNat) :
    ∃ r', firstBadRegister ops = some r' :=
  Option.isSome_iff_exists.mp (List.find?_isSome.mpr ⟨r, hr, decide_eq_true h8⟩)

theorem faultsWith_of_checksOperandA {mk : Byte → Instr} {a r : Byte} {s : State} (hc : ChecksOperandA mk)
    (h : firstBadRegister [a] = some r) : FaultsWith (mk a) (.invalidRegister r) s := by
  rcases firstBadRegister_cons h with ⟨ha, rfl⟩ | ⟨-, hnil⟩
  · exact hc a s ha
  · cases hnil

theorem faultsWith_of_checksOperandsAB {mk : Byte → Byte → Instr} {a b r : Byte} {s : State} (hc : ChecksOperandsAB mk)
    (h : firstBadRegister [a, b] = some r) : FaultsWith (mk a b) (.invalidRegister r) s := by
  obtain ⟨checkA, checkB⟩ := hc
  rcases firstBadRegister_cons h with ⟨ha, rfl⟩ | ⟨ha, hb⟩
  · exact checkA a b s ha
  · exact faultsWith_of_checksOperandA (mk := mk a) (fun b s h8 => checkB a b s ha h8) hb

/-- Every instruction checks its register operands first, in their order, and faults at the first that names none (R202). -/
theorem faultsWith_firstBadRegister {i : Instr} {r : Byte} (s : State) (h : firstBadRegister i.registerOperands = some r) :
    FaultsWith i (.invalidRegister r) s := by
  cases i with
  | nop | hlt | ret | iret => cases h
  | inc | dec | not | prn | pra | pop | push | call | jmp | jeq | jne | jlt | jgt | int =>
    exact faultsWith_of_checksOperandA (checksOperandA_of_checkReg fun _ _ => rfl) h
  | ldi a j => exact faultsWith_of_checksOperandA (mk := (.ldi · j)) (checksOperandA_of_checkReg fun _ _ => rfl) h
  | add | sub | mul | div | mod | or | xor | and | cmp | ld | st =>
    exact faultsWith_of_checksOperandsAB (checksOperandsAB_of_checkReg fun _ _ _ => rfl) h

end Sys2Proof.Machine

/-! The statements of 60_exceptions.md, each settled from the lemmas above. -/

namespace Sys2Proof.Machine

/-- Settles O3: decode refuses the byte before any operand is fetched, and nothing else a tick does reports UnknownOpcode. -/
theorem unknownOpcodeHaltsTheMachine : Obligations.UnknownOpcodeHaltsTheMachine := by
  refine ⟨fun s hr hp hop =>
    step_of_decodeAndFetch_error hr (Nat.lt_succ_of_le hp) (decodeAndFetch_of_not_opcode hop _), ?_⟩
  rintro s t b p - herr h ht
  obtain ⟨rfl, ⟨-, hf, -⟩ | ⟨hp, -, hdecode | ⟨i, hraises⟩⟩⟩ := step_faulted h herr ht
  · cases hf
  · obtain ⟨rfl, hop⟩ := not_opcode_of_decodeAndFetch_error hdecode
    exact ⟨Nat.le_of_lt_succ hp, rfl, hop, rfl⟩
  · cases hraises

/-- Settles O7: where InvalidRegister was raised some operand is bad, so there is a first one, and by the first half the record
names it. -/
theorem illFormedInstructionRaisesInvalidRegister : Obligations.IllFormedInstructionRaisesInvalidRegister := by
  refine ⟨fun i s r => faultsWith_firstBadRegister s, fun i s t r p herr h ht => ?_⟩
  obtain ⟨-, rfl, hraises⟩ := exec_faulted h herr ht
  cases hraises with
  | invalidRegister _ _ _ hr h8 =>
    obtain ⟨first, hfirst⟩ := exists_firstBadRegister hr h8
    have hreport := h.symm.trans (faultsWith_firstBadRegister s hfirst)
    cases hreport
    exact hfirst

/-- Settles O14: a fault is entered from the tick's state, or from that state with the opcode in ir. -/
theorem faultIsPrecise : Obligations.FaultIsPrecise := by
  rintro s t ⟨f, p⟩ - herr h ht
  obtain ⟨rfl, ⟨hp, -, rfl⟩ | ⟨hp, rfl, -⟩⟩ := step_faulted h herr ht
  · rw [if_neg (by omega)]
    exact ⟨rfl, rfl⟩
  · rw [if_pos (Nat.le_of_lt_succ hp)]
    exact ⟨rfl, rfl⟩

end Sys2Proof.Machine

/-! Runs (70_reset_and_hazards.md): what holds of one tick holds of any number of ticks, by induction on the ticks. -/

namespace Sys2Proof.Machine

/-- Any number of ticks answers a next state. -/
theorem run_answers (s : State) (n : Nat) : ∃ t : State, Host.Core.run Sys2Proof.core n s = .next t := by
  induction n generalizing s with
  | zero => exact ⟨s, rfl⟩
  | succ n ih =>
    obtain ⟨s', hs⟩ := step_answers s
    rw [run_succ n hs]
    exact ih s'

/-- A property every tick keeps holds of the state a run answers, if it holds of the state the run begins in. -/
theorem run_induction {P : State → Prop} (hstep : ∀ {s t : State}, P s → step s = .next t → P t) {n : Nat} {s t : State}
    (hs : P s) (h : Host.Core.run Sys2Proof.core n s = .next t) : P t := by
  induction n generalizing s with
  | zero =>
    cases h
    exact hs
  | succ n ih =>
    obtain ⟨s', hs'⟩ := step_answers s
    rw [run_succ n hs'] at h
    exact ih (hstep hs hs') h

end Sys2Proof.Machine

/-! The statements of 70_reset_and_hazards.md, each settled from the lemmas above. -/

namespace Sys2Proof.Machine

/-- Settles O13: each tick answers a next state, in HALTED and on a fault too, so the run never stops short. -/
theorem everyTickAnswersNext : Obligations.EveryTickAnswersNext := run_answers

/-- Settles O19: the launch state of any image is legal (O18), and every tick keeps it so (O16). -/
theorem everyRunStaysLegal : Obligations.EveryRunStaysLegal := fun image _ _ =>
  run_induction inv_step (launchStateIsLegal image)

end Sys2Proof.Machine
